-- ==== Sys2Proof/Word.lean ====
section
/-! DEFINITION. The unit of every space of the block (00_scope.md R10, 20_memory.md R40): the byte, and sequences of bytes. -/

namespace Sys2Proof

/-- A byte is 8 bits, an unsigned value in 0..255 (R10). -/
abbrev Byte := BitVec 8

/-- A byte sequence is a finite list of bytes, the first index being 0 (R11). -/
abbrev Bytes := List Byte

end Sys2Proof
end

