-- ==== Sys2Proof/Config.lean ====
section
/-! DEFINITION. The parameters of the block (00_scope.md section 4) and its one free value. -/

namespace Sys2Proof

/-- The eight byte constants of R5. The source gives the value of none of them: every claim is about every
configuration that obeys R6 (log 1). -/
structure Config where
  startMark : Byte
  endMark   : Byte
  escMark   : Byte
  subStart  : Byte
  subEnd    : Byte
  subEsc    : Byte
  dtData    : Byte
  dtAck     : Byte
  deriving DecidableEq, Repr

/-- `RESERVED = {START, END, ESC}` (R5). -/
abbrev Config.reserved (c : Config) : Bytes := [c.startMark, c.endMark, c.escMark]

/-- The three substitute bytes (R5). -/
abbrev Config.substitutes (c : Config) : Bytes := [c.subStart, c.subEnd, c.subEsc]

/-- R6 (a), (b), (c), (e): "a configuration that breaks one is not a configuration of this block". R6 (d), that
`unsub` is a bijection onto the reserved values, follows from (a) and (b). -/
abbrev Config.Valid (c : Config) : Prop :=
  c.reserved.Nodup ∧ c.substitutes.Nodup ∧ (∀ x ∈ c.substitutes, x ∉ c.reserved) ∧ c.dtAck ≠ c.dtData

/-- PRESUMED (log 2): the default values of R7, which the spec itself marks as general knowledge (G1) and uses only to
print its test vectors. -/
def Config.default : Config where
  startMark := 0x3E
  endMark   := 0x3C
  escMark   := 0x3D
  subStart  := 0x2E
  subEnd    := 0x2C
  subEsc    := 0x2D
  dtData    := 0x0C
  dtAck     := 0x01

/-- `MAX_PAYLOAD = 2^32 - 1`, the largest value the length field holds (R8). -/
abbrev maxPayload : Nat := 2 ^ 32 - 1

/-- `HDR_BYTES = 6` (R8). -/
abbrev hdrBytes : Nat := 6

/-- `MIN_INNER = 7`: header and checksum byte (R8). -/
abbrev minInner : Nat := 7

/-- FREE VALUE (log 9): what `pend_op` holds after the n-th CLEAR, which leaves it "unspecified" (10_state.md R27, R32;
43_ack_sequencer.md R175). It has no body, so nothing can be proved of its value. -/
opaque freePendOp : Nat → Byte

end Sys2Proof
end

