-- ==== Sys2Proof/Syntax.lean ====
section
/-! DEFINITION. Messages, results, and the operations and wire encodings of spec/opcode_table.json as one inductive. -/

namespace Sys2Proof

/-- `Message = {data_type, seq, payload}` (00_scope.md R13). -/
structure Message where
  dataType : Byte
  seq      : Byte
  payload  : Bytes
  deriving DecidableEq, Repr

/-- The sub-reasons of the verdict malformed, in the order of the tests (41_codec_frame.md R118). -/
inductive Malformed where
  /-- `MF_MARKERS`, R114 -/
  | markers
  /-- `MF_SHORT`, R115 -/
  | short
  /-- `MF_CHECKSUM`, R116 -/
  | checksum
  /-- `MF_LENGTH`, R117 -/
  | length
  deriving DecidableEq, Repr

/-- `UnpackResult = Message | malformed` (00_scope.md R13), the verdict with its sub-reason (R118). -/
inductive UnpackResult where
  | message (m : Message)
  | malformed (why : Malformed)
  deriving DecidableEq, Repr

/-- `ExtractResult = (Message | none, remaining)` (00_scope.md R13). -/
structure ExtractResult where
  msg  : Option Message
  rest : Bytes
  deriving DecidableEq, Repr

/-- The refusals of SEND_DATA in the order of their tests (43_ack_sequencer.md R151). PACK has the last one only
(41_codec_frame.md R111; its name is that of PACK's result in spec/opcode_table.json, "refusal too_long"). Outcomes are names, not numbers (60_exceptions.md R190). -/
inductive Refused where
  | notConnected
  | busy
  | emptyPayload
  | tooLong
  deriving DecidableEq, Repr

/-- One constructor for each row of spec/opcode_table.json: the fifteen operations of 30_encoding.md R75, then the five
wire encodings of R77. -/
inductive Instr where
  /-- ESCAPE(`B`), op_id 0 -/
  | escape (b : Bytes)
  /-- UNESCAPE(`X`), op_id 1 -/
  | unescape (x : Bytes)
  /-- CHECKSUM(`B`), op_id 2 -/
  | checksum (b : Bytes)
  /-- PACK(`data_type`, `seq`, `payload`), op_id 3 -/
  | pack (dataType seq : Byte) (payload : Bytes)
  /-- UNPACK(`raw`), op_id 4 -/
  | unpack (raw : Bytes)
  /-- EXTRACT(`buf`), op_id 5 -/
  | extract (buf : Bytes)
  /-- SEND_DATA(`payload`), op_id 6; it also reads the input `ready` -/
  | sendData (payload : Bytes)
  /-- RX_BYTES(`chunk`), op_id 7 -/
  | rxBytes (chunk : Bytes)
  /-- FRAME_ACK(`m`), op_id 8. Its operand is a message with `data_type = DT_ACK`, so only the other two fields are
  free. -/
  | frameAck (seq : Byte) (payload : Bytes)
  /-- FRAME_DATA(`m`), op_id 9. Its operand is a message with `data_type ≠ DT_ACK` (checked by `wellFormed`). -/
  | frameData (m : Message)
  /-- ACKSEQ(`s`), op_id 10 -/
  | ackseq (s : Byte)
  /-- PENDSET(`op`), op_id 11 -/
  | pendset (op : Byte)
  /-- TIMEOUT, op_id 12 -/
  | timeout
  /-- CLEAR, op_id 13 -/
  | clear
  /-- CLOSED, op_id 14 -/
  | closed
  /-- FRAME.DATA: the wire bytes of a data frame, `START, DT_DATA, ..., END` (R69); the row leaves `seq` and the payload
  free, and they fix the length and the checksum. -/
  | wireFrameData (seq : Byte) (payload : Bytes)
  /-- FRAME.ACK: the wire bytes of an ACK frame (R68); an inbound one may carry a payload. -/
  | wireFrameAck (seq : Byte) (payload : Bytes)
  /-- ESC.START: the wire bytes `ESC, SUB_START` (R63) -/
  | wireEscStart
  /-- ESC.END: the wire bytes `ESC, SUB_END` (R63) -/
  | wireEscEnd
  /-- ESC.ESC: the wire bytes `ESC, SUB_ESC` (R63) -/
  | wireEscEsc
  deriving DecidableEq, Repr

/-- The two formats of spec/opcode_table.json (30_encoding.md R77). -/
inductive Format where
  | op
  | wire
  deriving DecidableEq, Repr

/-- An encoded instruction: its format and its bytes. For `wire` the bytes are those of the stream. For `op` they are
the op_id and the operands in a layout of the model's own (log 3), since the source gives operations no binary
encoding. -/
structure Record where
  format : Format
  bytes  : Bytes
  deriving DecidableEq, Repr

end Sys2Proof
end

