-- ==== Sys2Proof/Machine/Operands.lean ====
section
/-! DEFINITION. Byte sequences as operands: searches and slices (00_scope.md R11), the substitute maps (R5), the length
field (30_encoding.md R67) and the header (R61). -/

namespace Sys2Proof.Codec

/-- `B[i..j)`: the indices from `i` up to but not including `j` (R11). -/
def slice (b : Bytes) (i j : Nat) : Bytes := (b.take j).drop i

/-- The least index of `v` in `b`, counted from `base`. -/
def indexFrom (v : Byte) (base : Nat) : Bytes → Option Nat
  | [] => none
  | x :: xs => if x = v then some base else indexFrom v (base + 1) xs

/-- `find(B, v, k)`: the least index `i ≥ k` with `B[i] = v`, or none (R11). -/
def findByte (b : Bytes) (v : Byte) (k : Nat) : Option Nat := indexFrom v k (b.drop k)

/-- The map `sub` of R5: the substitute of a reserved byte, none of any other byte. -/
def substituteOf (c : Config) (b : Byte) : Option Byte :=
  if b = c.startMark then some c.subStart
  else if b = c.endMark then some c.subEnd
  else if b = c.escMark then some c.subEsc
  else none

/-- The map `unsub` of R5: the reserved byte of a substitute, none of any other byte. -/
def originalOf (c : Config) (x : Byte) : Option Byte :=
  if x = c.subStart then some c.startMark
  else if x = c.subEnd then some c.endMark
  else if x = c.subEsc then some c.escMark
  else none

/-- The four length bytes `L[31:24], L[23:16], L[15:8], L[7:0]`, most significant first (30_encoding.md R67). -/
def lengthBytes (n : Nat) : Bytes :=
  [BitVec.ofNat 8 (n / 2 ^ 24), BitVec.ofNat 8 (n / 2 ^ 16), BitVec.ofNat 8 (n / 2 ^ 8), BitVec.ofNat 8 n]

/-- `BE32` (00_scope.md R11): the unsigned value of four bytes, most significant first. -/
def be32 (b0 b1 b2 b3 : Byte) : Nat :=
  b0.toNat * 2 ^ 24 + b1.toNat * 2 ^ 16 + b2.toNat * 2 ^ 8 + b3.toNat

/-- The 6-byte header, offsets 0 to 5 of the unescaped inner sequence (30_encoding.md R61). -/
def header (dataType seq : Byte) (payloadLength : Nat) : Bytes :=
  dataType :: seq :: lengthBytes payloadLength

end Sys2Proof.Codec
end

