-- ==== Sys2Proof/Machine/Flags.lean ====
section
/-! DEFINITION. The block stores no flags (10_state.md R24). This file holds the byte-sized values and conditions that
operations compute: CHECKSUM, ACKSEQ, PENDSET and the match. -/

namespace Sys2Proof.Codec

/-- CHECKSUM(`B`), 40_codec_bytes.md R99: an 8-bit accumulator, from 0, over all bytes. -/
def checksum (b : Bytes) : Byte := b.foldl (fun acc x => acc + x) 0

/-- ACKSEQ(`s`), 43_ack_sequencer.md R165: `1 - s` for 0 and 1, and 0 for every other byte. -/
def ackSeq (s : Byte) : Byte :=
  if s = 0 then 1 else if s = 1 then 0 else 0

/-- PENDSET(`op`), 43_ack_sequencer.md R168: the bytes equal to `op` or to `op + 1`, the sum taken on integers and not
wrapped. The set is an ascending list with no repeats (log 22). -/
def pendSet (op : Byte) : Bytes :=
  if op.toNat + 1 < 256 then [op, BitVec.ofNat 8 (op.toNat + 1)] else [op]

/-- The condition of 43_ack_sequencer.md R167 on the slot and on the message's first payload byte. -/
def matchesPending (pendValid : Bool) (pendOp : Byte) (m : Message) : Bool :=
  match m.payload with
  | [] => false
  | opcode :: _ => pendValid && decide (opcode ∈ pendSet pendOp)

end Sys2Proof.Codec
end

