-- ==== Sys2Proof/Machine/Codec.lean ====
section
/-! DEFINITION. The frame_codec (40_codec_bytes.md, 41_codec_frame.md, 42_codec_extract.md): pure functions of their
operands and of the configuration (10_state.md R20). -/

namespace Sys2Proof.Codec

/-- The image of one byte under ESCAPE (R90). -/
def escapeByte (c : Config) (b : Byte) : Bytes :=
  match substituteOf c b with
  | some x => [c.escMark, x]
  | none => [b]

/-- ESCAPE(`B`), R90: the concatenation, in order, of the images of the bytes. -/
def escape (c : Config) : Bytes → Bytes
  | [] => []
  | b :: bs => escapeByte c b ++ escape c bs

/-- UNESCAPE(`X`), R94: an escape pair gives its original and the scan advances by two; anything else gives itself and
the scan advances by one, also past a stray escape (R95). -/
def unescape (c : Config) : Bytes → Bytes
  | [] => []
  | [b] => [b]
  | b :: x :: rest =>
    if b = c.escMark then
      match originalOf c x with
      | some o => o :: unescape c rest
      | none => b :: unescape c (x :: rest)
    else b :: unescape c (x :: rest)

/-- Header and payload (41_codec_frame.md R110). -/
def innerBytes (dataType seq : Byte) (payload : Bytes) : Bytes :=
  header dataType seq payload.length ++ payload

/-- The raw frame of R110: the checksum is taken before escaping and is escaped with the rest; the markers are not. -/
def frameBytes (c : Config) (dataType seq : Byte) (payload : Bytes) : Bytes :=
  let u := innerBytes dataType seq payload
  [c.startMark] ++ escape c (u ++ [checksum u]) ++ [c.endMark]

/-- PACK(`data_type`, `seq`, `payload`), R110; a payload longer than MAX_PAYLOAD is refused (R111). -/
def pack (c : Config) (dataType seq : Byte) (payload : Bytes) : Option Bytes :=
  if payload.length ≤ maxPayload then some (frameBytes c dataType seq payload) else none

/-- Tests 2 to 4 of UNPACK on the unescaped interior `u`, and the message (R115 to R117). -/
def unpackInner (u : Bytes) : UnpackResult :=
  let n := u.length
  if n < minInner then .malformed .short
  else if checksum (slice u 0 (n - 1)) ≠ u.getD (n - 1) 0 then .malformed .checksum
  else if n - minInner ≠ be32 (u.getD 2 0) (u.getD 3 0) (u.getD 4 0) (u.getD 5 0) then .malformed .length
  else .message { dataType := u.getD 0 0, seq := u.getD 1 0, payload := slice u hdrBytes (n - 1) }

/-- UNPACK(`raw`), R123: the marker test (R114), then the unescaped interior is examined. -/
def unpack (c : Config) (raw : Bytes) : UnpackResult :=
  if raw.length < 2 ∨ raw.head? ≠ some c.startMark ∨ raw.getLast? ≠ some c.endMark then .malformed .markers
  else unpackInner (unescape c (slice raw 1 (raw.length - 1)))

/-- The loop of EXTRACT with its search cursor (42_codec_extract.md R136). The cases A, B, C, D are R131 to R134. The
first argument bounds the number of turns; a turn moves the cursor on by at least one (R135). -/
def extractFrom (c : Config) (buf : Bytes) : Nat → Nat → ExtractResult
  | 0, cursor => { msg := none, rest := buf.drop cursor }
  | turns + 1, cursor =>
    match findByte buf c.startMark cursor with
    | none => { msg := none, rest := buf.drop cursor }
    | some s =>
      match findByte buf c.endMark (s + 1) with
      | none => { msg := none, rest := buf.drop s }
      | some e =>
        match unpack c (slice buf s (e + 1)) with
        | .message m => { msg := some m, rest := buf.drop (e + 1) }
        | .malformed _ => extractFrom c buf turns (s + 1)

/-- EXTRACT(`buf`), R136: the search starts at 0. One turn for each byte and one more are always enough. -/
def extract (c : Config) (buf : Bytes) : ExtractResult := extractFrom c buf (buf.length + 1) 0

end Sys2Proof.Codec
end

