-- ==== Sys2Proof/Machine/State.lean ====
section
/-! DEFINITION. The state: the block's four elements (10_state.md R22), its input line and parameters, and the
environment's side of the interface. -/

namespace Sys2Proof.Machine

/-- What an observer of the block sees, in order (43_ack_sequencer.md R178; primitives of 00_scope.md R12). -/
inductive Emission where
  /-- `TxWrite(F)`: one whole frame handed to the transport. -/
  | txWrite (frame : Bytes)
  /-- `Resolve(r)`: the blocked send call ends with a message, or with none ("no response"). -/
  | resolve (r : Option Message)
  /-- `Deliver(m, matched)`: the message goes to the upper layer. -/
  | deliver (m : Message) (hasMatched : Bool)
  /-- The immediate result of an accepted SEND_DATA. -/
  | accepted
  /-- The immediate result of a refused SEND_DATA. -/
  | refused (why : Refused)
  deriving DecidableEq, Repr

/-- The value a pure operation returns to its caller (30_encoding.md R75). -/
inductive Returned where
  /-- ESCAPE, UNESCAPE -/
  | bytes (b : Bytes)
  /-- CHECKSUM, ACKSEQ -/
  | byte (b : Byte)
  /-- PACK: a raw frame -/
  | frame (f : Bytes)
  /-- PACK: the refusal too_long -/
  | refused (why : Refused)
  /-- UNPACK -/
  | unpacked (r : UnpackResult)
  /-- EXTRACT -/
  | extracted (r : ExtractResult)
  /-- PENDSET -/
  | byteSet (members : Bytes)
  deriving DecidableEq, Repr

/-- What is handed to the block, one at a time (60_exceptions.md R192). -/
inductive Input where
  /-- The Session drives the input line `ready` to a level (10_state.md R29). -/
  | ready (level : Bool)
  /-- The environment issues an operation, or wire bytes arrive. -/
  | issue (r : Record)
  /-- A step inside RX_BYTES, run by itself. The environment never hands over one (60_exceptions.md R199); it is the
  model's own, so that FRAME_ACK, FRAME_DATA, ACKSEQ and PENDSET can be executed alone (log 13). -/
  | inner (r : Record)
  deriving DecidableEq, Repr

/-- The whole storage of the block (10_state.md R22): the four elements of the ack_sequencer. The frame_codec has none
(R20). -/
structure Block where
  /-- `send_seq`, R25 -/
  sendSeq   : Byte
  /-- `pend_valid`, R27 -/
  pendValid : Bool
  /-- `pend_op`, R27 -/
  pendOp    : Byte
  /-- `rx_buf`, R28 -/
  rxBuf     : Bytes
  deriving DecidableEq, Repr

/-- The block, and beside it what a step needs and R30 keeps out of the block: the parameters, which no step changes,
the level of the input `ready`, the inputs the environment has queued, and the observer's record. -/
structure State where
  /-- The parameters of 00_scope.md R5. -/
  cfg      : Config
  block    : Block
  /-- The level of the input `ready` (10_state.md R29). -/
  ready    : Bool
  /-- The environment's queue, next input first (log 3). -/
  inbox    : List Input
  /-- The emissions so far, oldest first (log 6). -/
  trace    : List Emission
  /-- The values returned so far, oldest first (log 7). -/
  returned : List Returned
  /-- How many free values of `pend_op` have been used (log 9). -/
  freeIdx  : Nat
  deriving DecidableEq, Repr

/-- No behaviour of the block is a fault (93_implementation_defined.md section 1, 60_exceptions.md R190), so no
operation raises one (log 20). -/
inductive Fault where
  deriving DecidableEq, Repr

/-- Why a step has no meaning. Each is safe: the model stops where the spec gives no operation. -/
inductive Refusal where
  /-- Raised by an arm of `exec` that has no meaning yet; safe. -/
  | notModelled (mnemonic : String)
  /-- Raised by `step` when an OP record at the head of the queue names no operation of 30_encoding.md R75 or has not
  that operation's operands; safe (log 3). -/
  | undecodable
  /-- Raised by `step` when the environment issues FRAME_ACK, FRAME_DATA, ACKSEQ or PENDSET, which "are not issued from
  outside" (60_exceptions.md R199, 43_ack_sequencer.md R150); safe (log 13). -/
  | stepOfRxBytes
  /-- Raised by FRAME_DATA of a message whose type is DT_ACK, which is no operand of it
  (43_ack_sequencer.md R150, R161); safe (log 14). -/
  | ackTypedOperand
  /-- Raised by a wire frame whose payload is longer than MAX_PAYLOAD: no such wire bytes exist
  (41_codec_frame.md R111); safe (log 15). -/
  | noSuchFrame
  deriving DecidableEq, Repr

/-- The block right after its creation (10_state.md R32). DESIGN CHOICE (log 8): `pend_op` is 0, the spec calls it
unspecified. -/
def Block.reset : Block where
  sendSeq   := 0
  pendValid := false
  pendOp    := 0
  rxBuf     := []

/-- The machine right after reset: the block of R32, the input `ready` false (R32), nothing queued, nothing emitted.
PRESUMED (log 2): the parameters are the defaults of 00_scope.md R7. -/
def State.reset : State where
  cfg      := Config.default
  block    := Block.reset
  ready    := false
  inbox    := []
  trace    := []
  returned := []
  freeIdx  := 0

end Sys2Proof.Machine
end

