-- ==== Sys2Proof/Machine/Ops.lean ====
section
/-! DEFINITION. The named operations over the state: the writes of the four elements, the interface primitives of
00_scope.md R12, the endings of operations (R190, R196), and the work shared by RX_BYTES, FRAME_ACK, FRAME_DATA, TIMEOUT
and CLEAR. The block takes no exceptions and has no return from one (60_exceptions.md R190, R197): an exceptional
outcome is a value, given back by `refuse`, `giveBack` or `Resolve(none)`. -/

namespace Sys2Proof.Machine

open Codec

/-- `send_seq <- v` -/
def State.setSendSeq (s : State) (v : Byte) : State := { s with block := { s.block with sendSeq := v } }

/-- `pend_valid <- v` -/
def State.setPendValid (s : State) (v : Bool) : State := { s with block := { s.block with pendValid := v } }

/-- `pend_op <- v` -/
def State.setPendOp (s : State) (v : Byte) : State := { s with block := { s.block with pendOp := v } }

/-- `rx_buf <- v` -/
def State.setRxBuf (s : State) (v : Bytes) : State := { s with block := { s.block with rxBuf := v } }

/-- The level of the input line `ready`. -/
def State.setReady (s : State) (level : Bool) : State := { s with ready := level }

/-- One more emission, the newest last (43_ack_sequencer.md R178). -/
def State.emit (s : State) (e : Emission) : State := { s with trace := s.trace ++ [e] }

/-- A pure operation gives its result back to its caller and changes nothing else (10_state.md R20). -/
def State.giveBack (s : State) (r : Returned) : State := { s with returned := s.returned ++ [r] }

/-- `TxWrite(B)`: the bytes go to the transport as one call; its result is not read (20_memory.md R43). -/
def txWrite (s : State) (b : Bytes) : State := s.emit (.txWrite b)

/-- `Resolve(r)` -/
def resolve (s : State) (r : Option Message) : State := s.emit (.resolve r)

/-- `Deliver(m, matched)` -/
def deliver (s : State) (m : Message) (hasMatched : Bool) : State := s.emit (.deliver m hasMatched)

/-- `refuse(reason)`: SEND_DATA ends at once, the caller gets the reason, no state changes (60_exceptions.md R196). -/
def refuse (s : State) (why : Refused) : State := s.emit (.refused why)

/-- `pend_op` becomes unspecified (43_ack_sequencer.md R175): the next free value (log 9). -/
def State.forgetPendOp (s : State) : State :=
  { s.setPendOp (freePendOp s.freeIdx) with freeIdx := s.freeIdx + 1 }

/-- A pending request ends without a response: `Resolve(none)` and `pend_valid <- 0`; with none pending, nothing
(43_ack_sequencer.md R172). -/
def giveUpPending (s : State) : State :=
  if s.block.pendValid then (resolve s none).setPendValid false else s

/-- The refusal SEND_DATA ends with, if any, in the order of the tests of 43_ack_sequencer.md R151. -/
def sendRefusal (s : State) (payload : Bytes) : Option Refused :=
  if s.ready = false then some .notConnected
  else if s.block.pendValid = true then some .busy
  else if payload.length = 0 then some .emptyPayload
  else if maxPayload < payload.length then some .tooLong
  else none

/-- The effect of an accepted SEND_DATA (R152): the frame is written, the slot taken, and the call accepted. `send_seq`
is not written (R153). -/
def sendAccepted (s : State) (payload : Bytes) : State :=
  let s1 := txWrite s (frameBytes s.cfg s.cfg.dtData s.block.sendSeq payload)
  let s2 := (s1.setPendOp (payload.headD 0)).setPendValid true
  s2.emit .accepted

/-- The work of FRAME_ACK (R163). -/
def adoptSeq (s : State) (m : Message) : State := s.setSendSeq m.seq

/-- The ACK that answers a message (R166). -/
def ackFor (c : Config) (m : Message) : Bytes := frameBytes c c.dtAck (ackSeq m.seq) []

/-- The work of FRAME_DATA: the ACK first (R166), then the match (R167), then the delivery (R169). -/
def answerAndDeliver (s : State) (m : Message) : State :=
  let s1 := txWrite s (ackFor s.cfg m)
  if matchesPending s.block.pendValid s.block.pendOp m then
    deliver (resolve (s1.setPendValid false) (some m)) m true
  else deliver s1 m false

/-- The dispatch of an extracted message by its type alone (R161). -/
def handleMessage (s : State) (m : Message) : State :=
  if m.dataType = s.cfg.dtAck then adoptSeq s m else answerAndDeliver s m

/-- The loop of RX_BYTES (R160): extract, store the rest back, handle the message, until none is found. The first
argument bounds the number of turns; a turn with a message shortens the buffer (R162). -/
def pump : Nat → State → State
  | 0, s => s
  | turns + 1, s =>
    let r := extract s.cfg s.block.rxBuf
    match r.msg with
    | none => s.setRxBuf r.rest
    | some m => pump turns (handleMessage (s.setRxBuf r.rest) m)

/-- Bytes arrive (R160): they are appended to `rx_buf` and the loop runs to its end. -/
def receive (s : State) (chunk : Bytes) : State :=
  let buf := s.block.rxBuf ++ chunk
  pump (buf.length + 1) (s.setRxBuf buf)

end Sys2Proof.Machine
end

