-- ==== Sys2Proof/Machine/CodecOps.lean ====
section
/-! DEFINITION. The meanings of the six operations of the frame_codec. Each returns its result and changes no state of
the block (10_state.md R20). -/

namespace Sys2Proof.Machine

open Codec

/-- ESCAPE, 40_codec_bytes.md R90. -/
def execEscape (b : Bytes) (s : State) : Host.Outcome State Fault Refusal :=
  .next (s.giveBack (.bytes (escape s.cfg b)))

/-- UNESCAPE, 40_codec_bytes.md R94. -/
def execUnescape (x : Bytes) (s : State) : Host.Outcome State Fault Refusal :=
  .next (s.giveBack (.bytes (unescape s.cfg x)))

/-- CHECKSUM, 40_codec_bytes.md R99. -/
def execChecksum (b : Bytes) (s : State) : Host.Outcome State Fault Refusal :=
  .next (s.giveBack (.byte (checksum b)))

/-- PACK, 41_codec_frame.md R110; the refusal of R111 is a result like any other (60_exceptions.md R190, R196), and
spec/opcode_table.json names it: "byte sequence (raw frame) or refusal too_long". -/
def execPack (dataType seq : Byte) (payload : Bytes) (s : State) : Host.Outcome State Fault Refusal :=
  match pack s.cfg dataType seq payload with
  | some f => .next (s.giveBack (.frame f))
  | none => .next (s.giveBack (.refused .tooLong))

/-- UNPACK, 41_codec_frame.md R123. -/
def execUnpack (raw : Bytes) (s : State) : Host.Outcome State Fault Refusal :=
  .next (s.giveBack (.unpacked (unpack s.cfg raw)))

/-- EXTRACT, 42_codec_extract.md R136. Its operand is not `rx_buf`, and `rx_buf` is not changed. -/
def execExtract (buf : Bytes) (s : State) : Host.Outcome State Fault Refusal :=
  .next (s.giveBack (.extracted (extract s.cfg buf)))

end Sys2Proof.Machine
end

