-- ==== Sys2Proof/Machine/Events.lean ====
section
/-! DEFINITION. The meanings of TIMEOUT, CLEAR and CLOSED (43_ack_sequencer.md). -/

namespace Sys2Proof.Machine

/-- TIMEOUT, R172. -/
def execTimeout (s : State) : Host.Outcome State Fault Refusal :=
  .next (giveUpPending s)

/-- CLEAR, R175: a pending request first ends with `Resolve(none)`; then the reset values of 10_state.md R32, `pend_op`
unspecified. -/
def execClear (s : State) : Host.Outcome State Fault Refusal :=
  .next ((((giveUpPending s).setRxBuf []).setSendSeq 0).forgetPendOp)

/-- CLOSED, R177: no state of the block changes and nothing is emitted; outside it, the input `ready` becomes false
(log 5). -/
def execClosed (s : State) : Host.Outcome State Fault Refusal :=
  .next (s.setReady false)

end Sys2Proof.Machine
end

