-- ==== Sys2Proof/Machine/Sequencer.lean ====
section
/-! DEFINITION. The meanings of SEND_DATA, RX_BYTES, FRAME_ACK, FRAME_DATA, ACKSEQ and PENDSET (43_ack_sequencer.md). -/

namespace Sys2Proof.Machine

open Codec

/-- SEND_DATA, R151 and R152. A refusal is an outcome given to the caller, not a stop of the machine. -/
def execSendData (payload : Bytes) (s : State) : Host.Outcome State Fault Refusal :=
  match sendRefusal s payload with
  | some why => .next (refuse s why)
  | none => .next (sendAccepted s payload)

/-- RX_BYTES, R160. It does not read `ready`. -/
def execRxBytes (chunk : Bytes) (s : State) : Host.Outcome State Fault Refusal :=
  .next (receive s chunk)

/-- FRAME_ACK, R163: the operand is the message with type DT_ACK and these two fields. -/
def execFrameAck (seq : Byte) (payload : Bytes) (s : State) : Host.Outcome State Fault Refusal :=
  .next (adoptSeq s { dataType := s.cfg.dtAck, seq := seq, payload := payload })

/-- FRAME_DATA, R166, R167 and R169. A message with type DT_ACK is no operand of it (R150). -/
def execFrameData (m : Message) (s : State) : Host.Outcome State Fault Refusal :=
  if m.dataType = s.cfg.dtAck then .refused .ackTypedOperand else .next (answerAndDeliver s m)

/-- ACKSEQ, R165. -/
def execAckseq (seq : Byte) (s : State) : Host.Outcome State Fault Refusal :=
  .next (s.giveBack (.byte (ackSeq seq)))

/-- PENDSET, R168. -/
def execPendset (op : Byte) (s : State) : Host.Outcome State Fault Refusal :=
  .next (s.giveBack (.byteSet (pendSet op)))

end Sys2Proof.Machine
end

