-- ==== Sys2Proof/Machine/Wire.lean ====
section
/-! DEFINITION. The meanings of the five WIRE rows of spec/opcode_table.json: exactly those bytes arrive on the RX stream
(20_memory.md R40 (a), 43_ack_sequencer.md R160; log 11). -/

namespace Sys2Proof.Machine

open Codec

/-- A frame of one of the two named types arrives; a payload without an encoding makes no frame (41_codec_frame.md
R111). -/
def receiveFrame (dataType seq : Byte) (payload : Bytes) (s : State) : Host.Outcome State Fault Refusal :=
  match pack s.cfg dataType seq payload with
  | some f => .next (receive s f)
  | none => .refused .noSuchFrame

/-- FRAME.DATA, 30_encoding.md R69. -/
def execWireFrameData (seq : Byte) (payload : Bytes) (s : State) : Host.Outcome State Fault Refusal :=
  receiveFrame s.cfg.dtData seq payload s

/-- FRAME.ACK, 30_encoding.md R68. -/
def execWireFrameAck (seq : Byte) (payload : Bytes) (s : State) : Host.Outcome State Fault Refusal :=
  receiveFrame s.cfg.dtAck seq payload s

/-- ESC.START, 30_encoding.md R63. -/
def execWireEscStart (s : State) : Host.Outcome State Fault Refusal :=
  .next (receive s [s.cfg.escMark, s.cfg.subStart])

/-- ESC.END, 30_encoding.md R63. -/
def execWireEscEnd (s : State) : Host.Outcome State Fault Refusal :=
  .next (receive s [s.cfg.escMark, s.cfg.subEnd])

/-- ESC.ESC, 30_encoding.md R63. -/
def execWireEscEsc (s : State) : Host.Outcome State Fault Refusal :=
  .next (receive s [s.cfg.escMark, s.cfg.subEsc])

end Sys2Proof.Machine
end

