-- ==== Sys2Proof/Machine/Dispatch.lean ====
section
/-! DEFINITION. The dispatch of an instruction to its meaning. -/

namespace Sys2Proof.Machine

/-- One arm per row of spec/opcode_table.json. -/
def exec (i : Instr) (s : State) : Host.Outcome State Fault Refusal :=
  match i with
  | .escape b => Sys2Proof.Machine.execEscape b s
  | .unescape x => Sys2Proof.Machine.execUnescape x s
  | .checksum b => Sys2Proof.Machine.execChecksum b s
  | .pack t q p => Sys2Proof.Machine.execPack t q p s
  | .unpack raw => Sys2Proof.Machine.execUnpack raw s
  | .extract buf => Sys2Proof.Machine.execExtract buf s
  | .sendData p => Sys2Proof.Machine.execSendData p s
  | .rxBytes chunk => Sys2Proof.Machine.execRxBytes chunk s
  | .frameAck q p => Sys2Proof.Machine.execFrameAck q p s
  | .frameData m => Sys2Proof.Machine.execFrameData m s
  | .ackseq q => Sys2Proof.Machine.execAckseq q s
  | .pendset op => Sys2Proof.Machine.execPendset op s
  | .timeout => Sys2Proof.Machine.execTimeout s
  | .clear => Sys2Proof.Machine.execClear s
  | .closed => Sys2Proof.Machine.execClosed s
  | .wireFrameData q p => Sys2Proof.Machine.execWireFrameData q p s
  | .wireFrameAck q p => Sys2Proof.Machine.execWireFrameAck q p s
  | .wireEscStart => Sys2Proof.Machine.execWireEscStart s
  | .wireEscEnd => Sys2Proof.Machine.execWireEscEnd s
  | .wireEscEsc => Sys2Proof.Machine.execWireEscEsc s

end Sys2Proof.Machine
end

