-- ==== Sys2Proof/WellFormed.lean ====
section
/-! DEFINITION. Which terms of `Instr` are instructions of the block under a configuration. -/

namespace Sys2Proof

/-- FRAME_DATA's operand is a message that is not an ACK (43_ack_sequencer.md R150), and a frame on the wire has a
payload whose length fits its 32-bit field (41_codec_frame.md R111). Every other operand is any byte or byte sequence. -/
def wellFormed (c : Config) : Instr → Bool
  | .escape _ => true
  | .unescape _ => true
  | .checksum _ => true
  | .pack _ _ _ => true
  | .unpack _ => true
  | .extract _ => true
  | .sendData _ => true
  | .rxBytes _ => true
  | .frameAck _ _ => true
  | .frameData m => decide (m.dataType ≠ c.dtAck)
  | .ackseq _ => true
  | .pendset _ => true
  | .timeout => true
  | .clear => true
  | .closed => true
  | .wireFrameData _ payload => decide (payload.length ≤ maxPayload)
  | .wireFrameAck _ payload => decide (payload.length ≤ maxPayload)
  | .wireEscStart => true
  | .wireEscEnd => true
  | .wireEscEsc => true

end Sys2Proof
end

