-- ==== Sys2Proof/Decode.lean ====
section
/-! DEFINITION. Records to instructions and back. OP records: the op_id of 30_encoding.md R75 in the low four bits of the
first byte, the high four bits zero, then the operands (layout: log 3). WIRE records: the wire bytes of R60 to R69 and
the escape pairs of R63. -/

namespace Sys2Proof

open Codec

/-- Why a record encodes no instruction. -/
inductive DecodeError where
  /-- No byte at all. -/
  | emptyRecord
  /-- An OP byte that is none of op_id 0 to 14. -/
  | unknownOperation (b : Byte)
  /-- An OP record that ends before its operands. -/
  | missingOperand
  /-- An OP record that goes on after its operands. -/
  | trailingBytes
  /-- FRAME_DATA of a message whose type is DT_ACK. -/
  | ackTypedOperand
  /-- Wire bytes that are neither an escape pair nor a well-formed frame. -/
  | malformedFrame (why : Malformed)
  /-- A frame that UNPACK accepts and PACK never makes (R72, R121): it is no row of the table. -/
  | nonCanonicalFrame
  /-- A frame whose type is neither DT_DATA nor DT_ACK: it is no row of the table. -/
  | unnamedDataType (b : Byte)
  deriving DecidableEq, Repr

/-- An OP record's first byte is its op_id; the operands follow in the order of the source's signatures (R76). -/
def decodeOp (c : Config) : Bytes → Except DecodeError Instr
  | [] => .error .emptyRecord
  | b :: operands =>
    match b.toNat, operands with
    | 0, bs => .ok (.escape bs)
    | 1, bs => .ok (.unescape bs)
    | 2, bs => .ok (.checksum bs)
    | 3, t :: s :: p => .ok (.pack t s p)
    | 3, _ => .error .missingOperand
    | 4, bs => .ok (.unpack bs)
    | 5, bs => .ok (.extract bs)
    | 6, p => .ok (.sendData p)
    | 7, bs => .ok (.rxBytes bs)
    | 8, s :: p => .ok (.frameAck s p)
    | 8, _ => .error .missingOperand
    | 9, t :: s :: p => if t = c.dtAck then .error .ackTypedOperand else .ok (.frameData ⟨t, s, p⟩)
    | 9, _ => .error .missingOperand
    | 10, [s] => .ok (.ackseq s)
    | 10, [] => .error .missingOperand
    | 10, _ => .error .trailingBytes
    | 11, [op] => .ok (.pendset op)
    | 11, [] => .error .missingOperand
    | 11, _ => .error .trailingBytes
    | 12, [] => .ok .timeout
    | 12, _ => .error .trailingBytes
    | 13, [] => .ok .clear
    | 13, _ => .error .trailingBytes
    | 14, [] => .ok .closed
    | 14, _ => .error .trailingBytes
    | _, _ => .error (.unknownOperation b)

/-- The escape pair that stands for a reserved byte (30_encoding.md R63). -/
def escapePairOf (c : Config) (original : Byte) : Instr :=
  if original = c.startMark then .wireEscStart
  else if original = c.endMark then .wireEscEnd
  else .wireEscEsc

/-- Wire bytes that form a whole frame, read by UNPACK and required to be the bytes PACK makes of the message. -/
def decodeFrame (c : Config) (raw : Bytes) : Except DecodeError Instr :=
  match unpack c raw with
  | .malformed why => .error (.malformedFrame why)
  | .message m =>
    if frameBytes c m.dataType m.seq m.payload ≠ raw then .error .nonCanonicalFrame
    else if m.dataType = c.dtAck then .ok (.wireFrameAck m.seq m.payload)
    else if m.dataType = c.dtData then .ok (.wireFrameData m.seq m.payload)
    else .error (.unnamedDataType m.dataType)

/-- Wire bytes are an escape pair or a whole frame. -/
def decodeWire (c : Config) (bytes : Bytes) : Except DecodeError Instr :=
  match bytes with
  | [] => .error .emptyRecord
  | [b, x] =>
    if b = c.escMark then
      match originalOf c x with
      | some o => .ok (escapePairOf c o)
      | none => decodeFrame c bytes
    else decodeFrame c bytes
  | _ => decodeFrame c bytes

/-- The decoder, total on every record. -/
def decode (c : Config) (r : Record) : Except DecodeError Instr :=
  match r.format with
  | .op => decodeOp c r.bytes
  | .wire => decodeWire c r.bytes

/-- The encoder. -/
def encode (c : Config) : Instr → Record
  | .escape b => ⟨.op, 0 :: b⟩
  | .unescape x => ⟨.op, 1 :: x⟩
  | .checksum b => ⟨.op, 2 :: b⟩
  | .pack t s p => ⟨.op, 3 :: t :: s :: p⟩
  | .unpack raw => ⟨.op, 4 :: raw⟩
  | .extract buf => ⟨.op, 5 :: buf⟩
  | .sendData p => ⟨.op, 6 :: p⟩
  | .rxBytes chunk => ⟨.op, 7 :: chunk⟩
  | .frameAck s p => ⟨.op, 8 :: s :: p⟩
  | .frameData m => ⟨.op, 9 :: m.dataType :: m.seq :: m.payload⟩
  | .ackseq s => ⟨.op, [10, s]⟩
  | .pendset op => ⟨.op, [11, op]⟩
  | .timeout => ⟨.op, [12]⟩
  | .clear => ⟨.op, [13]⟩
  | .closed => ⟨.op, [14]⟩
  | .wireFrameData s p => ⟨.wire, frameBytes c c.dtData s p⟩
  | .wireFrameAck s p => ⟨.wire, frameBytes c c.dtAck s p⟩
  | .wireEscStart => ⟨.wire, [c.escMark, c.subStart]⟩
  | .wireEscEnd => ⟨.wire, [c.escMark, c.subEnd]⟩
  | .wireEscEsc => ⟨.wire, [c.escMark, c.subEsc]⟩

/-- The bytes of a number, least significant first. -/
def bytesOfNat : Nat → Nat → Bytes
  | 0, _ => []
  | n + 1, w => BitVec.ofNat 8 w :: bytesOfNat n (w / 256)

/-- The shortest OP record that begins with this byte: the op_id and the operands that are single bytes. -/
def opRecordLength : Bytes → Nat
  | [] => 0
  | b :: _ =>
    match b.toNat with
    | 3 => 3
    | 8 => 2
    | 9 => 3
    | 10 => 2
    | 11 => 2
    | _ => 1

/-- A word of the opcode table as a record (log 4). One byte is an OP row: its single-byte operands are zero and its
byte sequence is empty. More bytes are a WIRE row: two escape bytes stand as they are, and the two bytes `START,
data_type` are completed as the frame with `seq` zero and no payload. -/
def tableRecord (c : Config) (nbits w : Nat) : Record :=
  let bytes := bytesOfNat ((nbits + 7) / 8) w
  match bytes with
  | [b0, b1] => if b0 = c.startMark then ⟨.wire, frameBytes c b1 0 []⟩ else ⟨.wire, bytes⟩
  | _ :: _ :: _ => ⟨.wire, bytes⟩
  | _ => ⟨.op, bytes ++ List.replicate (opRecordLength bytes - bytes.length) 0⟩

/-- The instruction the decoder reads from a word of the opcode table, whose WIRE rows are given over the default
values of 00_scope.md R7. -/
def decodeTableWord (nbits w : Nat) : Option Instr :=
  match decode Config.default (tableRecord Config.default nbits w) with
  | .ok i => some i
  | .error _ => none

end Sys2Proof
end

