-- ==== Sys2Proof/Machine/Inputs.lean ====
section
/-! DEFINITION. From a queued record to the instruction the block is asked to run, and who may ask for it. -/

namespace Sys2Proof.Machine

/-- The operations the environment may issue (60_exceptions.md R199): SEND_DATA, RX_BYTES, TIMEOUT, CLEAR, CLOSED and
the six functions of the frame_codec. Bytes of a WIRE row come from the transport, as RX_BYTES (log 11). FRAME_ACK and
FRAME_DATA are steps of RX_BYTES, ACKSEQ and PENDSET are used by FRAME_DATA only (43_ack_sequencer.md R150). -/
def issuedFromOutside : Instr → Bool
  | .frameAck _ _ | .frameData _ | .ackseq _ | .pendset _ => false
  | .escape _ | .unescape _ | .checksum _ | .pack _ _ _ | .unpack _ | .extract _ => true
  | .sendData _ | .rxBytes _ | .timeout | .clear | .closed => true
  | .wireFrameData _ _ | .wireFrameAck _ _ | .wireEscStart | .wireEscEnd | .wireEscEsc => true

/-- What a record asks for. Wire bytes that are no row of the table are still bytes that arrive: "the block gives a
meaning to every byte sequence whatever it holds" (20_memory.md R41), which is RX_BYTES of them (R40 (a)). An OP record
that names no operation of 30_encoding.md R75 asks for nothing. -/
def readRecord (c : Config) (r : Record) : Except DecodeError Instr :=
  match decode c r with
  | .ok i => .ok i
  | .error e =>
    match r.format with
    | .wire => .ok (.rxBytes r.bytes)
    | .op => .error e

/-- The instruction of a record the environment hands over, or the name of what stops it. -/
def issuedInstr (c : Config) (r : Record) : Except Refusal Instr :=
  match readRecord c r with
  | .ok i => if issuedFromOutside i then .ok i else .error .stepOfRxBytes
  | .error _ => .error .undecodable

/-- The instruction of a record that stands for a step inside RX_BYTES (log 13). -/
def innerInstr (c : Config) (r : Record) : Except Refusal Instr :=
  match readRecord c r with
  | .ok i => .ok i
  | .error _ => .error .undecodable

/-- The input that runs a record: issued from outside where R199 allows that, else as a step inside RX_BYTES. -/
def inputFor (c : Config) (r : Record) : Input :=
  match decode c r with
  | .ok i => if issuedFromOutside i then .issue r else .inner r
  | .error _ => .issue r

end Sys2Proof.Machine
end

