-- ==== Sys2Proof/Machine/Step.lean ====
section
/-! DEFINITION. One step: the environment hands over its next input (60_exceptions.md R192), and an operation runs to its
end (20_memory.md R47). -/

namespace Sys2Proof.Machine

/-- The next input leaves the queue: a level of `ready` is taken over, a record is read and its instruction executed.
With nothing queued the block does nothing (70_reset_and_hazards.md R220). -/
def step (s : State) : Host.Outcome State Fault Refusal :=
  match s.inbox with
  | [] => .next s
  | .ready level :: rest => .next ({ s with inbox := rest }.setReady level)
  | .issue r :: rest =>
    match issuedInstr s.cfg r with
    | .ok i => exec i { s with inbox := rest }
    | .error why => .refused why
  | .inner r :: rest =>
    match innerInstr s.cfg r with
    | .ok i => exec i { s with inbox := rest }
    | .error why => .refused why

/-- The instruction of a word of the opcode table is queued as the very next input (log 4). -/
def State.withFetchWord (s : State) (nbits w : Nat) : State :=
  { s with inbox := inputFor s.cfg (tableRecord s.cfg nbits w) :: s.inbox }

end Sys2Proof.Machine
end

