-- ==== Sys2Proof/Safety.lean ====
section
/-! DEFINITION. What claims call a good state and a good environment. -/

namespace Sys2Proof.Safety

open Sys2Proof.Machine

/-- The two shapes of the remaining buffer (42_codec_extract.md R139): it contains no START, or its first byte is START
and no END follows. -/
abbrev RxShape (c : Config) (buf : Bytes) : Prop :=
  c.startMark ∉ buf ∨ (buf.head? = some c.startMark ∧ c.endMark ∉ buf.tail)

/-- The invariant of the block: the parameters obey 00_scope.md R6 and `rx_buf` has a shape of R139, as 10_state.md R28
says it always has between operations. -/
abbrev Inv (s : State) : Prop := s.cfg.Valid ∧ RxShape s.cfg s.block.rxBuf

def isAccepted : Emission → Bool
  | .accepted => true
  | _ => false

def isResolve : Emission → Bool
  | .resolve _ => true
  | _ => false

def isTxWrite : Emission → Bool
  | .txWrite _ => true
  | _ => false

def isDeliver : Emission → Bool
  | .deliver _ _ => true
  | _ => false

/-- Every accepted request has had its one Resolve, but for the one that is pending (43_ack_sequencer.md R154). -/
abbrev SlotAccounted (s : State) : Prop :=
  s.trace.countP isAccepted = s.trace.countP isResolve + s.block.pendValid.toNat

/-- The operations that are pure functions (30_encoding.md R75): the frame_codec's six, ACKSEQ and PENDSET. -/
def isPure : Instr → Bool
  | .escape _ | .unescape _ | .checksum _ | .pack _ _ _ | .unpack _ | .extract _ | .ackseq _ | .pendset _ => true
  | .sendData _ | .rxBytes _ | .frameAck _ _ | .frameData _ | .timeout | .clear | .closed => false
  | .wireFrameData _ _ | .wireFrameAck _ _ | .wireEscStart | .wireEscEnd | .wireEscEsc => false

/-- The instructions in which bytes arrive on the RX stream (20_memory.md R40). -/
def receivesBytes : Instr → Bool
  | .rxBytes _ | .wireFrameData _ _ | .wireFrameAck _ _ | .wireEscStart | .wireEscEnd | .wireEscEsc => true
  | .escape _ | .unescape _ | .checksum _ | .pack _ _ _ | .unpack _ | .extract _ | .ackseq _ | .pendset _ => false
  | .sendData _ | .frameAck _ _ | .frameData _ | .timeout | .clear | .closed => false

/-- The bytes that arrive in an instruction, if any do. -/
def arrivingBytes (c : Config) : Instr → Option Bytes
  | .rxBytes chunk => some chunk
  | .wireFrameData q p => some (Codec.frameBytes c c.dtData q p)
  | .wireFrameAck q p => some (Codec.frameBytes c c.dtAck q p)
  | .wireEscStart => some [c.escMark, c.subStart]
  | .wireEscEnd => some [c.escMark, c.subEnd]
  | .wireEscEsc => some [c.escMark, c.subEsc]
  | .escape _ | .unescape _ | .checksum _ | .pack _ _ _ | .unpack _ | .extract _ | .ackseq _ | .pendset _ => none
  | .sendData _ | .frameAck _ _ | .frameData _ | .timeout | .clear | .closed => none

/-- At most `turns` messages, one EXTRACT after the other, each on what the one before left. -/
def extractAll (c : Config) : Nat → Bytes → List Message
  | 0, _ => []
  | turns + 1, buf =>
    match (Codec.extract c buf).msg with
    | none => []
    | some m => m :: extractAll c turns (Codec.extract c buf).rest

/-- All messages in a buffer, in the order in which RX_BYTES extracts them (43_ack_sequencer.md R160). -/
def messagesIn (c : Config) (buf : Bytes) : List Message := extractAll c (buf.length + 1) buf

/-- An input that `step` does not refuse to read. -/
def isTaken (c : Config) : Input → Bool
  | .ready _ => true
  | .issue r => (issuedInstr c r).isOk
  | .inner r => (innerInstr c r).isOk

/-- What the environment may hand over from CLOSED until the next CLEAR (43_ack_sequencer.md R177): the input `ready`
stays false and no bytes arrive; steps of RX_BYTES are never handed over from outside (60_exceptions.md R199). -/
def closedPeriodInput (c : Config) : Input → Bool
  | .ready level => !level
  | .issue r =>
    match issuedInstr c r with
    | .ok i => !receivesBytes i && decide (i ≠ .clear)
    | .error _ => false
  | .inner _ => false

end Sys2Proof.Safety
end

