-- ==== Sys2Proof/Certificates/Slice0/Obligations.lean ====
section
/-! DEFINITION. The statements for the provers. Each docstring names the rule of spec/ it formalises. -/

open Sys2Proof Sys2Proof.Machine Sys2Proof.Safety

/-! ### Reset, the step, decoding -/

/-- 10_state.md R32, 70_reset_and_hazards.md R220: what reset leaves, and that the block then does nothing until an
operation is issued. `pend_op` is not mentioned: its reset value is the model's choice (log 8). -/
def Obligations.ResetLeavesBlockEmptyAndIdle : Prop :=
  State.reset.block.sendSeq = 0 ∧ State.reset.block.pendValid = false ∧ State.reset.block.rxBuf = [] ∧
    State.reset.ready = false ∧ step State.reset = .next State.reset

/-- The two invariants hold at reset (10_state.md R28; 43_ack_sequencer.md R154). -/
def Obligations.ResetMeetsBothInvariants : Prop := Inv State.reset ∧ SlotAccounted State.reset

/-- A step runs the decoded instruction, after taking its record off the queue: an operation the environment may issue
(60_exceptions.md R199), or a step inside RX_BYTES handed over as such (log 13). A level of `ready` is taken over. Wire
bytes that are no row of the table arrive as RX_BYTES of them (20_memory.md R41). An OP record that names no operation
of 30_encoding.md R75 is refused. With nothing queued nothing happens. The queue and the records are the model's own
(log 3). -/
def Obligations.StepRunsTheDecodedOperation : Prop :=
  ∀ s : State,
    (∀ r rest i, s.inbox = .issue r :: rest → decode s.cfg r = .ok i → issuedFromOutside i = true →
      step s = exec i { s with inbox := rest }) ∧
    (∀ r rest i, s.inbox = .inner r :: rest → decode s.cfg r = .ok i → step s = exec i { s with inbox := rest }) ∧
    (∀ level rest, s.inbox = .ready level :: rest → step s = .next { s with inbox := rest, ready := level }) ∧
    (∀ bytes rest e, s.inbox = .issue ⟨.wire, bytes⟩ :: rest → decode s.cfg ⟨.wire, bytes⟩ = .error e →
      step s = exec (.rxBytes bytes) { s with inbox := rest }) ∧
    (∀ bytes rest e, s.inbox = .issue ⟨.op, bytes⟩ :: rest → decode s.cfg ⟨.op, bytes⟩ = .error e →
      step s = .refused .undecodable) ∧
    (s.inbox = [] → step s = .next s)

/-- Words written out from 30_encoding.md R75 (op_id in four bits) and from the wire rows with the default bytes: what
they decode to. The operand layout of an operation is the model's own (log 3). -/
def Obligations.WordsWrittenFromTheTableDecode : Prop :=
  decode Config.default ⟨.op, [0x00, 0x3C]⟩ = .ok (.escape [0x3C]) ∧
  decode Config.default ⟨.op, [0x03, 0x0C, 0x01, 0x22]⟩ = .ok (.pack 0x0C 0x01 [0x22]) ∧
  decode Config.default ⟨.op, [0x06, 0x22]⟩ = .ok (.sendData [0x22]) ∧
  decode Config.default ⟨.op, [0x0E]⟩ = .ok .closed ∧
  decode Config.default ⟨.op, [0x0F]⟩ = .error (.unknownOperation 0x0F) ∧
  decode Config.default ⟨.op, [0x16, 0x22]⟩ = .error (.unknownOperation 0x16) ∧
  decode Config.default ⟨.wire, [0x3E, 0x0C, 0x00, 0x00, 0x00, 0x00, 0x01, 0x22, 0x2F, 0x3C]⟩ =
    .ok (.wireFrameData 0x00 [0x22]) ∧
  decode Config.default ⟨.wire, [0x3E, 0x01, 0x01, 0x00, 0x00, 0x00, 0x00, 0x02, 0x3C]⟩ =
    .ok (.wireFrameAck 0x01 []) ∧
  decode Config.default ⟨.wire, [0x3D, 0x2C]⟩ = .ok .wireEscEnd

/-- Decode and encode agree, for every well-formed instruction under every configuration of R6. -/
def Obligations.DecodeOfEncodeIsTheInstruction : Prop :=
  ∀ (c : Config) (i : Instr), c.Valid → wellFormed c i = true → decode c (encode c i) = .ok i

/-- Each record has one meaning: a record that decodes is the encoding of what it decodes to, which is well-formed. This
is so because the model decodes to a wire row only the bytes that PACK makes of a message of a named type (log 12), and
by the model's layout of OP records (log 3): several raw frames carry one message (30_encoding.md R72, 41_codec_frame.md
R121), and those that are not canonical decode to no row and arrive through RX_BYTES. -/
def Obligations.EncodeOfDecodeIsTheRecord : Prop :=
  ∀ (c : Config) (r : Record) (i : Instr), c.Valid → decode c r = .ok i → encode c i = r ∧ wellFormed c i = true

/-- Every well-formed instruction executes to a next state from every state: "every operation is total or refuses", and
a refusal of the spec is an outcome given to the caller (60_exceptions.md R190, R197). -/
def Obligations.WellFormedInstructionsComplete : Prop :=
  ∀ (i : Instr) (s : State), wellFormed s.cfg i = true → ∃ t, exec i s = .next t

/-- 00_scope.md R6 (d): `unsub` is a bijection from the substitutes onto the reserved bytes, and it inverts `sub`. -/
def Obligations.SubstituteMapsAreInverse : Prop :=
  ∀ c : Config, c.Valid →
    (∀ r ∈ c.reserved, ∃ x ∈ c.substitutes, Codec.substituteOf c r = some x ∧ Codec.originalOf c x = some r) ∧
    (∀ x ∈ c.substitutes, ∃ r ∈ c.reserved, Codec.originalOf c x = some r ∧ Codec.substituteOf c r = some x) ∧
    (∀ b, b ∉ c.reserved → Codec.substituteOf c b = none) ∧ (∀ b, b ∉ c.substitutes → Codec.originalOf c b = none)

/-! ### frame_codec -/

/-- 10_state.md R20: a pure operation gives back one result, fixed by its operands and the configuration, and changes
nothing else, from every state. -/
def Obligations.PureOperationsOnlyReturn : Prop :=
  ∀ (c : Config) (i : Instr), isPure i = true →
    ∃ r : Returned, ∀ s : State, s.cfg = c → exec i s = .next { s with returned := s.returned ++ [r] }

/-- 40_codec_bytes.md R90: ESCAPE is the concatenation of the images of the bytes. -/
def Obligations.EscapeMapsEachByte : Prop :=
  ∀ (s : State) (b : Bytes), exec (.escape b) s = .next { s with returned := s.returned ++ [.bytes
    (b.flatMap fun x =>
      if x = s.cfg.startMark then [s.cfg.escMark, s.cfg.subStart]
      else if x = s.cfg.endMark then [s.cfg.escMark, s.cfg.subEnd]
      else if x = s.cfg.escMark then [s.cfg.escMark, s.cfg.subEsc]
      else [x])] }

/-- 40_codec_bytes.md R91, R92: the length of ESCAPE's output, no marker in it, and an ESC only before a substitute. -/
def Obligations.EscapeOutputHasNoMarkers : Prop :=
  ∀ (s : State) (b : Bytes), s.cfg.Valid →
    ∃ e : Bytes, exec (.escape b) s = .next { s with returned := s.returned ++ [.bytes e] } ∧
      e.length = b.length + b.countP (fun x => decide (x ∈ s.cfg.reserved)) ∧
      s.cfg.startMark ∉ e ∧ s.cfg.endMark ∉ e ∧
      ∀ i, e[i]? = some s.cfg.escMark → ∃ x ∈ s.cfg.substitutes, e[i + 1]? = some x

/-- 40_codec_bytes.md R94: the scan of UNESCAPE, case by case on what stands at the front. Together the cases fix the
result on every input. -/
def Obligations.UnescapeReadsPairsAndLiterals : Prop :=
  ∀ (s : State), s.cfg.Valid →
    exec (.unescape []) s = .next { s with returned := s.returned ++ [.bytes []] } ∧
    ∀ x : Bytes, ∃ y : Bytes,
      exec (.unescape x) s = .next { s with returned := s.returned ++ [.bytes y] } ∧
      exec (.unescape (s.cfg.escMark :: s.cfg.subStart :: x)) s =
        .next { s with returned := s.returned ++ [.bytes (s.cfg.startMark :: y)] } ∧
      exec (.unescape (s.cfg.escMark :: s.cfg.subEnd :: x)) s =
        .next { s with returned := s.returned ++ [.bytes (s.cfg.endMark :: y)] } ∧
      exec (.unescape (s.cfg.escMark :: s.cfg.subEsc :: x)) s =
        .next { s with returned := s.returned ++ [.bytes (s.cfg.escMark :: y)] } ∧
      ∀ b : Byte, (b ≠ s.cfg.escMark ∨ ∀ z, x.head? = some z → z ∉ s.cfg.substitutes) →
        exec (.unescape (b :: x)) s = .next { s with returned := s.returned ++ [.bytes (b :: y)] }

/-- 40_codec_bytes.md R96: UNESCAPE(ESCAPE(`B`)) = `B`. -/
def Obligations.UnescapeUndoesEscape : Prop :=
  ∀ (s : State) (b : Bytes), s.cfg.Valid →
    ∃ e : Bytes, exec (.escape b) s = .next { s with returned := s.returned ++ [.bytes e] } ∧
      exec (.unescape e) s = .next { s with returned := s.returned ++ [.bytes b] }

/-- 40_codec_bytes.md R99: CHECKSUM is the sum of the unsigned bytes modulo 256. -/
def Obligations.ChecksumIsTheSumModulo256 : Prop :=
  ∀ (s : State) (b : Bytes), exec (.checksum b) s =
    .next { s with returned := s.returned ++ [.byte (BitVec.ofNat 8 ((b.map BitVec.toNat).sum % 256))] }

/-- 40_codec_bytes.md R101: changing exactly one byte changes the checksum. -/
def Obligations.ChecksumSeesOneChangedByte : Prop :=
  ∀ (s : State) (a b : Bytes) (x y : Byte), x ≠ y →
    ∃ k k' : Byte, exec (.checksum (a ++ x :: b)) s = .next { s with returned := s.returned ++ [.byte k] } ∧
      exec (.checksum (a ++ y :: b)) s = .next { s with returned := s.returned ++ [.byte k'] } ∧ k ≠ k'

/-- 41_codec_frame.md R110, 30_encoding.md R67: the frame PACK builds, its length field bit field by bit field. -/
def Obligations.PackBuildsTheFrame : Prop :=
  ∀ (s : State) (t q : Byte) (p : Bytes), p.length ≤ 2 ^ 32 - 1 →
    let len := BitVec.ofNat 32 p.length
    let u := [t, q, len.extractLsb' 24 8, len.extractLsb' 16 8, len.extractLsb' 8 8, len.extractLsb' 0 8] ++ p
    exec (.pack t q p) s = .next { s with returned := s.returned ++ [.frame
      ([s.cfg.startMark] ++ Codec.escape s.cfg (u ++ [Codec.checksum u]) ++ [s.cfg.endMark])] }

/-- 41_codec_frame.md R111: a longer payload is refused and nothing is produced. -/
def Obligations.PackRefusesALongerPayload : Prop :=
  ∀ (s : State) (t q : Byte) (p : Bytes), 2 ^ 32 - 1 < p.length →
    exec (.pack t q p) s = .next { s with returned := s.returned ++ [.refused .tooLong] }

/-- 41_codec_frame.md R112, 30_encoding.md R64: the shape and the length of a frame. -/
def Obligations.PackedFrameShape : Prop :=
  ∀ (s : State) (t q : Byte) (p : Bytes), s.cfg.Valid → p.length ≤ 2 ^ 32 - 1 →
    ∃ interior : Bytes,
      exec (.pack t q p) s = .next { s with returned := s.returned ++ [.frame
        (s.cfg.startMark :: (interior ++ [s.cfg.endMark]))] } ∧
      s.cfg.startMark ∉ interior ∧ s.cfg.endMark ∉ interior ∧
      7 + p.length ≤ interior.length ∧ interior.length ≤ 2 * (7 + p.length)

/-- 41_codec_frame.md R114 to R117: the four tests of UNPACK in their order, and the message when all pass. -/
def Obligations.UnpackTestsInOrder : Prop :=
  ∀ s : State,
    (∀ raw : Bytes, (¬ ∃ i, raw = s.cfg.startMark :: (i ++ [s.cfg.endMark])) →
      exec (.unpack raw) s = .next { s with returned := s.returned ++ [.unpacked (.malformed .markers)] }) ∧
    (∀ i : Bytes, (Codec.unescape s.cfg i).length < 7 →
      exec (.unpack (s.cfg.startMark :: (i ++ [s.cfg.endMark]))) s =
        .next { s with returned := s.returned ++ [.unpacked (.malformed .short)] }) ∧
    (∀ (i p : Bytes) (t q l3 l2 l1 l0 k : Byte),
      Codec.unescape s.cfg i = [t, q, l3, l2, l1, l0] ++ p ++ [k] →
      (Codec.checksum ([t, q, l3, l2, l1, l0] ++ p) ≠ k →
        exec (.unpack (s.cfg.startMark :: (i ++ [s.cfg.endMark]))) s =
          .next { s with returned := s.returned ++ [.unpacked (.malformed .checksum)] }) ∧
      (Codec.checksum ([t, q, l3, l2, l1, l0] ++ p) = k →
        p.length ≠ l3.toNat * 2 ^ 24 + l2.toNat * 2 ^ 16 + l1.toNat * 2 ^ 8 + l0.toNat →
        exec (.unpack (s.cfg.startMark :: (i ++ [s.cfg.endMark]))) s =
          .next { s with returned := s.returned ++ [.unpacked (.malformed .length)] }) ∧
      (Codec.checksum ([t, q, l3, l2, l1, l0] ++ p) = k →
        p.length = l3.toNat * 2 ^ 24 + l2.toNat * 2 ^ 16 + l1.toNat * 2 ^ 8 + l0.toNat →
        exec (.unpack (s.cfg.startMark :: (i ++ [s.cfg.endMark]))) s =
          .next { s with returned := s.returned ++ [.unpacked (.message ⟨t, q, p⟩)] }))

/-- 41_codec_frame.md R119: UNPACK(PACK(`t`, `s`, `P`)) is the message. -/
def Obligations.UnpackInvertsPack : Prop :=
  ∀ (s : State) (t q : Byte) (p : Bytes), s.cfg.Valid → p.length ≤ 2 ^ 32 - 1 →
    ∃ f : Bytes, exec (.pack t q p) s = .next { s with returned := s.returned ++ [.frame f] } ∧
      exec (.unpack f) s = .next { s with returned := s.returned ++ [.unpacked (.message ⟨t, q, p⟩)] }

/-- 41_codec_frame.md R120: one changed interior byte that is no part of an escape pair, and makes none, is found by the
checksum. In a frame of PACK a byte is part of a pair exactly when it is ESC or follows an ESC. The verdict malformed
comes with its sub-reason, which the spec lets a model leave out (R118, log 21). -/
def Obligations.OneCorruptedByteIsMalformed : Prop :=
  ∀ (s : State) (t q v : Byte) (p f : Bytes) (j : Nat), s.cfg.Valid → p.length ≤ 2 ^ 32 - 1 →
    exec (.pack t q p) s = .next { s with returned := s.returned ++ [.frame f] } →
    1 ≤ j → j + 1 < f.length → f[j]? ≠ some v → f[j]? ≠ some s.cfg.escMark → f[j - 1]? ≠ some s.cfg.escMark →
    ¬ (v = s.cfg.escMark ∧ ∃ x ∈ s.cfg.substitutes, f[j + 1]? = some x) →
    exec (.unpack (f.set j v)) s = .next { s with returned := s.returned ++ [.unpacked (.malformed .checksum)] }

/-- 42_codec_extract.md R131, R132: without a START the buffer is returned as it is; with a START and no END after it,
the buffer from that START. -/
def Obligations.ExtractKeepsWhatIsNoFrameYet : Prop :=
  ∀ (s : State),
    (∀ b : Bytes, s.cfg.startMark ∉ b →
      exec (.extract b) s = .next { s with returned := s.returned ++ [.extracted ⟨none, b⟩] }) ∧
    (∀ g r : Bytes, s.cfg.startMark ∉ g → s.cfg.endMark ∉ r →
      exec (.extract (g ++ s.cfg.startMark :: r)) s =
        .next { s with returned := s.returned ++ [.extracted ⟨none, s.cfg.startMark :: r⟩] })

/-- 42_codec_extract.md R133: the slice from the first START to the first END after it, when it is well-formed, is
returned as its message with everything after its END. -/
def Obligations.ExtractReturnsTheFirstFrame : Prop :=
  ∀ (s : State) (g i tail : Bytes) (m : Message), s.cfg.startMark ∉ g → s.cfg.endMark ∉ i →
    exec (.unpack (s.cfg.startMark :: (i ++ [s.cfg.endMark]))) s =
      .next { s with returned := s.returned ++ [.unpacked (.message m)] } →
    exec (.extract (g ++ s.cfg.startMark :: (i ++ s.cfg.endMark :: tail))) s =
      .next { s with returned := s.returned ++ [.extracted ⟨some m, tail⟩] }

/-- 42_codec_extract.md R134: after a malformed candidate EXTRACT goes on from the byte after its START. -/
def Obligations.ExtractResynchronises : Prop :=
  ∀ (s : State) (g i tail : Bytes) (w : Malformed), s.cfg.startMark ∉ g → s.cfg.endMark ∉ i →
    exec (.unpack (s.cfg.startMark :: (i ++ [s.cfg.endMark]))) s =
      .next { s with returned := s.returned ++ [.unpacked (.malformed w)] } →
    ∃ r : ExtractResult,
      exec (.extract (g ++ s.cfg.startMark :: (i ++ s.cfg.endMark :: tail))) s =
        .next { s with returned := s.returned ++ [.extracted r] } ∧
      exec (.extract (i ++ s.cfg.endMark :: tail)) s = .next { s with returned := s.returned ++ [.extracted r] }

/-- 42_codec_extract.md R138, the source's three testable properties made exact. -/
def Obligations.ExtractFindsPackedFrames : Prop :=
  ∀ (s : State) (t q : Byte) (p f : Bytes), s.cfg.Valid → p.length ≤ 2 ^ 32 - 1 →
    exec (.pack t q p) s = .next { s with returned := s.returned ++ [.frame f] } →
    (∀ g tail : Bytes, s.cfg.startMark ∉ g →
      exec (.extract (g ++ f ++ tail)) s =
        .next { s with returned := s.returned ++ [.extracted ⟨some ⟨t, q, p⟩, tail⟩] }) ∧
    (∀ g r : Bytes, s.cfg.startMark ∉ g → s.cfg.endMark ∉ r →
      exec (.extract (g ++ s.cfg.startMark :: r)) s =
        .next { s with returned := s.returned ++ [.extracted ⟨none, s.cfg.startMark :: r⟩] }) ∧
    (∀ (x tail : Bytes) (w : Malformed), s.cfg.startMark ∉ x → s.cfg.endMark ∉ x →
      exec (.unpack (s.cfg.startMark :: (x ++ [s.cfg.endMark]))) s =
        .next { s with returned := s.returned ++ [.unpacked (.malformed w)] } →
      exec (.extract (s.cfg.startMark :: (x ++ [s.cfg.endMark]) ++ f ++ tail)) s =
        .next { s with returned := s.returned ++ [.extracted ⟨some ⟨t, q, p⟩, tail⟩] })

/-- 42_codec_extract.md R139 and 43_ack_sequencer.md R162: the rest is a suffix; without a message it has one of the two
shapes and a second EXTRACT changes nothing; a message removes at least 9 bytes. -/
def Obligations.ExtractRestShape : Prop :=
  ∀ (s : State) (b : Bytes), ∃ r : ExtractResult,
    exec (.extract b) s = .next { s with returned := s.returned ++ [.extracted r] } ∧ r.rest <:+ b ∧
    (r.msg = none → RxShape s.cfg r.rest ∧
      exec (.extract r.rest) s = .next { s with returned := s.returned ++ [.extracted r] }) ∧
    (∀ m, r.msg = some m → r.rest.length + 9 ≤ b.length)

/-! ### ack_sequencer -/

/-- 43_ack_sequencer.md R151: the refusals of SEND_DATA in their order; each is given to the caller and changes nothing
else. The refusals busy, empty_payload and too_long are the spec's own choices (92_eei_decisions.md D9, D10, D14). -/
def Obligations.SendDataRefusalsInOrder : Prop :=
  ∀ (s : State) (p : Bytes),
    (s.ready = false →
      exec (.sendData p) s = .next { s with trace := s.trace ++ [.refused .notConnected] }) ∧
    (s.ready = true → s.block.pendValid = true →
      exec (.sendData p) s = .next { s with trace := s.trace ++ [.refused .busy] }) ∧
    (s.ready = true → s.block.pendValid = false → p = [] →
      exec (.sendData p) s = .next { s with trace := s.trace ++ [.refused .emptyPayload] }) ∧
    (s.ready = true → s.block.pendValid = false → 2 ^ 32 - 1 < p.length →
      exec (.sendData p) s = .next { s with trace := s.trace ++ [.refused .tooLong] })

/-- 43_ack_sequencer.md R152, R153: an enabled SEND_DATA writes PACK(DT_DATA, send_seq, payload), stores the opcode, takes
the slot, and leaves `send_seq` alone. That `accepted` stands after the TxWrite in the trace follows the pseudocode of
R152 (log 6). -/
def Obligations.SendDataWritesOneFrameAndTakesTheSlot : Prop :=
  ∀ (s : State) (op : Byte) (p : Bytes), s.ready = true → s.block.pendValid = false → (op :: p).length ≤ 2 ^ 32 - 1 →
    ∃ f : Bytes,
      exec (.pack s.cfg.dtData s.block.sendSeq (op :: p)) s = .next { s with returned := s.returned ++ [.frame f] } ∧
      exec (.sendData (op :: p)) s = .next { s with
        block := { s.block with pendValid := true, pendOp := op }
        trace := s.trace ++ [.txWrite f, .accepted] }

/-- 30_encoding.md R69: the bytes an accepted SEND_DATA writes are those of the table's FRAME.DATA row with `send_seq` and
the payload, which the decoder reads back. That `accepted` stands after the TxWrite in the trace is the model's reading
of the pseudocode of R152 (log 6). -/
def Obligations.SentFrameIsTheDataFrameRow : Prop :=
  ∀ (s : State) (op : Byte) (p : Bytes), s.cfg.Valid → s.ready = true → s.block.pendValid = false →
    (op :: p).length ≤ 2 ^ 32 - 1 →
    ∃ (f : Bytes) (t : State), exec (.sendData (op :: p)) s = .next t ∧
      t.trace = s.trace ++ [.txWrite f, .accepted] ∧
      decode s.cfg ⟨.wire, f⟩ = .ok (.wireFrameData s.block.sendSeq (op :: p))

/-- 43_ack_sequencer.md R160, R161: the bytes are appended and extracted from; with no message the rest is stored and the
operation ends; with a message the rest is stored, the message is handled by FRAME_ACK or FRAME_DATA by its type alone,
and the extraction goes on. The input `ready` is not read. -/
def Obligations.RxBytesHandlesMessagesOneByOne : Prop :=
  ∀ (s : State) (chunk : Bytes),
    ((Codec.extract s.cfg (s.block.rxBuf ++ chunk)).msg = none →
      exec (.rxBytes chunk) s = .next { s with
        block := { s.block with rxBuf := (Codec.extract s.cfg (s.block.rxBuf ++ chunk)).rest } }) ∧
    (∀ m, (Codec.extract s.cfg (s.block.rxBuf ++ chunk)).msg = some m →
      ∃ t u : State,
        exec (if m.dataType = s.cfg.dtAck then .frameAck m.seq m.payload else .frameData m) { s with
          block := { s.block with rxBuf := (Codec.extract s.cfg (s.block.rxBuf ++ chunk)).rest } } = .next t ∧
        exec (.rxBytes []) t = .next u ∧ exec (.rxBytes chunk) s = .next u) ∧
    (∀ (level : Bool) (t : State), exec (.rxBytes chunk) s = .next t →
      exec (.rxBytes chunk) { s with ready := level } = .next { t with ready := level })

/-- 20_memory.md R42: how the byte stream is cut into chunks does not matter, from every state. -/
def Obligations.RxBytesIgnoresFragmentation : Prop :=
  ∀ (s : State) (a b : Bytes), ∃ t u : State,
    exec (.rxBytes a) s = .next t ∧ exec (.rxBytes b) t = .next u ∧ exec (.rxBytes (a ++ b)) s = .next u

/-- 10_state.md R28, 43_ack_sequencer.md R150, R162: RX_BYTES ends with `rx_buf` in a shape of R139, then RX_BYTES of
nothing changes nothing, and it leaves everything but `rx_buf`, `send_seq`, `pend_valid` and the trace as it was. That
`pend_op` keeps its value when a match frees the slot is the model's reading (log 10); 10_state.md R27 calls it
unspecified there. -/
def Obligations.RxBytesFrameAndFinalShape : Prop :=
  ∀ (s : State) (chunk : Bytes), ∃ (t : State) (new : List Emission),
    exec (.rxBytes chunk) s = .next t ∧ RxShape s.cfg t.block.rxBuf ∧ exec (.rxBytes []) t = .next t ∧
    t = { s with
      block := { s.block with sendSeq := t.block.sendSeq, pendValid := t.block.pendValid, rxBuf := t.block.rxBuf }
      trace := s.trace ++ new }

/-- 43_ack_sequencer.md R166, R169, 20_memory.md R51 (a), (b): what one RX_BYTES emits is, for each non-ACK message in the
order of extraction, one block: the TxWrite of PACK(DT_ACK, ACKSEQ(seq), []) of that message, a Resolve of it if it is
delivered as matched, and its Deliver. So there are as many TxWrites as deliveries and never a delivery ahead of its
ACK; and at most one request is resolved. That Resolve stands before Deliver is the spec's own choice (D18). -/
def Obligations.RxBytesAcknowledgesEveryDelivery : Prop :=
  ∀ (s : State) (chunk : Bytes), ∃ (t : State) (new : List Emission) (blocks : List (List Emission)),
    exec (.rxBytes chunk) s = .next t ∧ t.trace = s.trace ++ new ∧ new = blocks.flatten ∧
    List.Forall₂ (fun m block =>
        let a := Codec.frameBytes s.cfg s.cfg.dtAck (if m.seq = 0 then 1 else 0) []
        block = [.txWrite a, .resolve (some m), .deliver m true] ∨ block = [.txWrite a, .deliver m false])
      ((messagesIn s.cfg (s.block.rxBuf ++ chunk)).filter fun m => decide (m.dataType ≠ s.cfg.dtAck)) blocks ∧
    new.countP isTxWrite = new.countP isDeliver ∧
    (∀ pre, pre <+: new → pre.countP isDeliver ≤ pre.countP isTxWrite) ∧
    new.countP isResolve + t.block.pendValid.toNat = s.block.pendValid.toNat ∧ new.countP isAccepted = 0

/-- 43_ack_sequencer.md R163: FRAME_ACK does one thing. -/
def Obligations.FrameAckOnlyAdoptsTheSeq : Prop :=
  ∀ (s : State) (q : Byte) (p : Bytes),
    exec (.frameAck q p) s = .next { s with block := { s.block with sendSeq := q } }

/-- 43_ack_sequencer.md R166: FRAME_DATA writes the ACK PACK(DT_ACK, ACKSEQ(seq), []) before anything else, exactly one,
and neither reads nor writes `send_seq`. -/
def Obligations.FrameDataWritesOneAckFirst : Prop :=
  ∀ (s : State) (m : Message), m.dataType ≠ s.cfg.dtAck →
    ∃ (k : Byte) (a : Bytes) (t : State) (new : List Emission),
      exec (.ackseq m.seq) s = .next { s with returned := s.returned ++ [.byte k] } ∧
      exec (.pack s.cfg.dtAck k []) s = .next { s with returned := s.returned ++ [.frame a] } ∧
      exec (.frameData m) s = .next t ∧ t.trace = s.trace ++ .txWrite a :: new ∧ new.countP isTxWrite = 0 ∧
      ∀ v : Byte, exec (.frameData m) { s with block := { s.block with sendSeq := v } } =
        .next { t with block := { t.block with sendSeq := v } }

/-- 43_ack_sequencer.md R167 to R169, R171: the whole effect of FRAME_DATA. A match needs a pending request and a first
payload byte equal to its opcode or, unwrapped, to the opcode plus one; it looks at nothing else. No wrap (D8), no match
of an empty payload (D9) and Resolve before Deliver (D18) are the spec's own choices; that `pend_op` keeps its value on
a match is the model's reading (log 10), 10_state.md R27 calls it unspecified there. -/
def Obligations.FrameDataMatchesAndDelivers : Prop :=
  ∀ (s : State) (m : Message), m.dataType ≠ s.cfg.dtAck →
    let a := Codec.frameBytes s.cfg s.cfg.dtAck (if m.seq = 0 then 1 else 0) []
    let isMatch := s.block.pendValid = true ∧ ∃ op rest, m.payload = op :: rest ∧
      (op.toNat = s.block.pendOp.toNat ∨ op.toNat = s.block.pendOp.toNat + 1)
    (isMatch → exec (.frameData m) s = .next { s with
      block := { s.block with pendValid := false }
      trace := s.trace ++ [.txWrite a, .resolve (some m), .deliver m true] }) ∧
    (¬ isMatch → exec (.frameData m) s = .next { s with
      trace := s.trace ++ [.txWrite a, .deliver m false] })

/-- 43_ack_sequencer.md R150: a message of type DT_ACK is no operand of FRAME_DATA; the model refuses it by name
(log 14). -/
def Obligations.FrameDataStopsOnAnAckMessage : Prop :=
  ∀ (s : State) (m : Message), m.dataType = s.cfg.dtAck → exec (.frameData m) s = .refused .ackTypedOperand

/-- 43_ack_sequencer.md R165: ACKSEQ. -/
def Obligations.AckSeqIsTheComplement : Prop :=
  ∀ s : State,
    exec (.ackseq 0) s = .next { s with returned := s.returned ++ [.byte 1] } ∧
    exec (.ackseq 1) s = .next { s with returned := s.returned ++ [.byte 0] } ∧
    ∀ q : Byte, 2 ≤ q.toNat → exec (.ackseq q) s = .next { s with returned := s.returned ++ [.byte 0] }

/-- 43_ack_sequencer.md R168: PENDSET holds the bytes equal to the opcode or to the opcode plus one, not wrapped. -/
def Obligations.PendSetMembers : Prop :=
  ∀ (s : State) (op : Byte), ∃ l : Bytes,
    exec (.pendset op) s = .next { s with returned := s.returned ++ [.byteSet l] } ∧ l.Nodup ∧
    ∀ v : Byte, v ∈ l ↔ v.toNat = op.toNat ∨ v.toNat = op.toNat + 1

/-- 43_ack_sequencer.md R172, 60_exceptions.md R195: TIMEOUT. That `pend_op`, which 10_state.md R27 calls unspecified once
the slot is free, keeps its value is the model's reading of "nothing else changes" (R195; log 10). -/
def Obligations.TimeoutEndsThePendingRequest : Prop :=
  ∀ s : State,
    (s.block.pendValid = true → exec .timeout s = .next { s with
      block := { s.block with pendValid := false }
      trace := s.trace ++ [.resolve none] }) ∧
    (s.block.pendValid = false → exec .timeout s = .next s)

/-- 43_ack_sequencer.md R173: after TIMEOUT the next SEND_DATA is accepted, and its frame is the one the same request
had before, since nothing was adopted in between (R153). That `accepted` stands after the TxWrite in the trace is the
model's reading of the pseudocode of R152 (log 6). -/
def Obligations.SendIsAcceptedAfterTimeout : Prop :=
  ∀ (s : State) (op : Byte) (p : Bytes), s.ready = true → (op :: p).length ≤ 2 ^ 32 - 1 →
    ∃ t u : State, exec .timeout s = .next t ∧ exec (.sendData (op :: p)) t = .next u ∧
      u.block.pendValid = true ∧ u.block.pendOp = op ∧
      u.trace = t.trace ++ [.txWrite (Codec.frameBytes s.cfg s.cfg.dtData s.block.sendSeq (op :: p)), .accepted]

/-- 43_ack_sequencer.md R175, 10_state.md R32: CLEAR. That the counter returns to 0 and that a pending request is
completed with none are the spec's own choices (92_eei_decisions.md D11). `pend_op` becomes some value. -/
def Obligations.ClearReturnsTheBlockToReset : Prop :=
  ∀ s : State, ∃ v : Byte, exec .clear s = .next { s with
    block := { sendSeq := 0, pendValid := false, pendOp := v, rxBuf := [] }
    trace := s.trace ++ (if s.block.pendValid = true then [.resolve none] else [])
    freeIdx := s.freeIdx + 1 }

/-- 43_ack_sequencer.md R177: CLOSED changes no state of the block and emits nothing; the input `ready` falls (log 5). -/
def Obligations.ClosedChangesNoBlockState : Prop :=
  ∀ s : State, exec .closed s = .next { s with ready := false }

/-! ### Wire rows: their bytes arrive (log 11) -/

/-- 30_encoding.md R69, 43_ack_sequencer.md R160: a data frame arriving is RX_BYTES of its bytes; when no START waits in
`rx_buf` it has the effect of FRAME_DATA of its message, and `rx_buf` is left empty. That a wire row acts by arriving is
the model's choice (log 11). -/
def Obligations.DataFrameOnTheWireIsHandled : Prop :=
  ∀ (s : State) (q : Byte) (p : Bytes), s.cfg.Valid → p.length ≤ 2 ^ 32 - 1 →
    ∃ (f : Bytes) (t : State),
      exec (.pack s.cfg.dtData q p) s = .next { s with returned := s.returned ++ [.frame f] } ∧
      exec (.wireFrameData q p) s = .next t ∧ exec (.rxBytes f) s = .next t ∧
      (s.cfg.startMark ∉ s.block.rxBuf →
        exec (.frameData ⟨s.cfg.dtData, q, p⟩) { s with block := { s.block with rxBuf := [] } } = .next t)

/-- 30_encoding.md R68: an ACK frame arriving, with or without a payload, in the same way (log 11). -/
def Obligations.AckFrameOnTheWireIsHandled : Prop :=
  ∀ (s : State) (q : Byte) (p : Bytes), s.cfg.Valid → p.length ≤ 2 ^ 32 - 1 →
    ∃ (f : Bytes) (t : State),
      exec (.pack s.cfg.dtAck q p) s = .next { s with returned := s.returned ++ [.frame f] } ∧
      exec (.wireFrameAck q p) s = .next t ∧ exec (.rxBytes f) s = .next t ∧
      (s.cfg.startMark ∉ s.block.rxBuf →
        t = { s with block := { s.block with sendSeq := q, rxBuf := [] } })

/-- 30_encoding.md R63: an escape pair arriving joins the buffer, holds no marker, and nothing is emitted; and from any
state it is RX_BYTES of its two bytes (log 11). -/
def Obligations.EscapePairsOnTheWireJoinTheBuffer : Prop :=
  ∀ s : State, s.cfg.Valid →
    (∀ i x, (i = .wireEscStart ∧ x = s.cfg.subStart) ∨ (i = .wireEscEnd ∧ x = s.cfg.subEnd) ∨
        (i = .wireEscEsc ∧ x = s.cfg.subEsc) →
      (∃ t, exec i s = .next t ∧ exec (.rxBytes [s.cfg.escMark, x]) s = .next t) ∧
      (RxShape s.cfg s.block.rxBuf →
        exec i s = .next { s with block := { s.block with rxBuf := s.block.rxBuf ++ [s.cfg.escMark, x] } }))

/-- 41_codec_frame.md R111: no wire bytes exist for a longer payload; the model refuses such a term by name (log 15). -/
def Obligations.WireFramesStopOnALongerPayload : Prop :=
  ∀ (s : State) (q : Byte) (p : Bytes), 2 ^ 32 - 1 < p.length →
    exec (.wireFrameData q p) s = .refused .noSuchFrame ∧ exec (.wireFrameAck q p) s = .refused .noSuchFrame

/-! ### The whole machine -/

/-- What no instruction changes or takes back: the parameters (10_state.md R30 (a)), the queue, what was emitted and
what was returned; and the input `ready` falls by CLOSED only (10_state.md R29, 43_ack_sequencer.md R177). -/
def Obligations.EveryInstructionKeepsTheSurroundings : Prop :=
  ∀ (i : Instr) (s t : State), exec i s = .next t →
    t.cfg = s.cfg ∧ t.inbox = s.inbox ∧ s.trace <+: t.trace ∧ s.returned <+: t.returned ∧
    t.ready = (if i = .closed then false else s.ready) ∧ t.freeIdx = (if i = .clear then s.freeIdx + 1 else s.freeIdx)

/-- 10_state.md R25, 43_ack_sequencer.md R153, R164 (b): outside arriving bytes, only FRAME_ACK and CLEAR write `send_seq`,
and what they write is the received byte or 0. Where bytes arrive, `send_seq` afterwards is the seq of the last ACK
among the messages extracted, and as before if there is none. -/
def Obligations.SendSeqIsWrittenOnlyByAckAndClear : Prop :=
  ∀ (i : Instr) (s t : State), exec i s = .next t →
    (receivesBytes i = false → t.block.sendSeq ≠ s.block.sendSeq →
      (∃ q p, i = .frameAck q p ∧ t.block.sendSeq = q) ∨ (i = .clear ∧ t.block.sendSeq = 0)) ∧
    (receivesBytes i = true → ∃ chunk, arrivingBytes s.cfg i = some chunk ∧
      t.block.sendSeq = (messagesIn s.cfg (s.block.rxBuf ++ chunk)).foldl
        (fun q m => if m.dataType = s.cfg.dtAck then m.seq else q) s.block.sendSeq)

/-- 10_state.md R27: the slot is taken by an accepted SEND_DATA only, and freed with a Resolve only. The third clause, that
`pend_op` is written by an accepted SEND_DATA and by CLEAR only, is the model's reading (log 10): R27 calls `pend_op`
unspecified while the slot is free. -/
def Obligations.SlotIsTakenBySendAndFreedByResolve : Prop :=
  ∀ (i : Instr) (s t : State), exec i s = .next t →
    (s.block.pendValid = false → t.block.pendValid = true →
      ∃ op p, i = .sendData (op :: p) ∧ t.block.pendOp = op ∧ t.trace.countP isAccepted = s.trace.countP isAccepted + 1) ∧
    (s.block.pendValid = true → t.block.pendValid = false →
      t.trace.countP isResolve = s.trace.countP isResolve + 1) ∧
    (t.block.pendOp ≠ s.block.pendOp → i = .clear ∨ (s.block.pendValid = false ∧ t.block.pendValid = true))

/-- 10_state.md R27, 93_implementation_defined.md U10: while no request is pending no rule reads `pend_op`. Two states
that differ only there give the same outcome, up to `pend_op`. -/
def Obligations.PendOpIsNotReadWhileFree : Prop :=
  ∀ (i : Instr) (s : State) (v : Byte), s.block.pendValid = false →
    (∀ t, exec i s = .next t → ∃ w : Byte, exec i { s with block := { s.block with pendOp := v } } =
      .next { t with block := { t.block with pendOp := w } } ∧ (t.block.pendValid = true → w = t.block.pendOp)) ∧
    (∀ r, exec i s = .refused r → exec i { s with block := { s.block with pendOp := v } } = .refused r)

/-- 10_state.md R29: only SEND_DATA reads the input `ready`. Every other instruction ends in the same way, and with the
same state but for `ready`, at either level. -/
def Obligations.ReadyIsReadBySendDataOnly : Prop :=
  ∀ (i : Instr) (s : State) (level : Bool), (∀ p, i ≠ .sendData p) →
    (∀ t, exec i s = .next t →
      exec i { s with ready := level } = .next { t with ready := if i = .closed then false else level }) ∧
    (∀ r, exec i s = .refused r → exec i { s with ready := level } = .refused r)

/-- 20_memory.md R40 (b): outside arriving bytes, the TX stream is written by SEND_DATA and FRAME_DATA only, one frame at
a time (20_memory.md R43). -/
def Obligations.OnlySendDataAndFrameDataTransmit : Prop :=
  ∀ (i : Instr) (s t : State), exec i s = .next t → receivesBytes i = false →
    t.trace.countP isTxWrite = s.trace.countP isTxWrite ∨
    (t.trace.countP isTxWrite = s.trace.countP isTxWrite + 1 ∧ ((∃ p, i = .sendData p) ∨ ∃ m, i = .frameData m))

/-- The invariant of the block is kept by every step (00_scope.md R6; 10_state.md R28). -/
def Obligations.EveryStepKeepsTheBlockInvariant : Prop :=
  ∀ s t : State, Inv s → step s = .next t → Inv t

/-- 43_ack_sequencer.md R154: every accepted request but the pending one has had exactly one Resolve; every step keeps
this account. -/
def Obligations.EveryStepKeepsTheSlotAccount : Prop :=
  ∀ s t : State, SlotAccounted s → step s = .next t → SlotAccounted t

/-- 43_ack_sequencer.md R177: from CLOSED until the next CLEAR, while no bytes arrive and `ready` stays false, every
input is handled, `rx_buf` and `send_seq` keep their values, and nothing is written to the transport. The rule on the
inputs is the environment's (log 25). -/
def Obligations.ClosedPeriodKeepsBufferAndSeq : Prop :=
  ∀ (s : State) (inputs later : List Input), s.ready = false → s.inbox = inputs ++ later →
    (∀ x ∈ inputs, closedPeriodInput s.cfg x = true) →
    ∃ t : State, Sys2Proof.core.run inputs.length s = .next t ∧ t.inbox = later ∧ t.ready = false ∧
      t.block.rxBuf = s.block.rxBuf ∧ t.block.sendSeq = s.block.sendSeq ∧
      t.trace.countP isTxWrite = s.trace.countP isTxWrite

/-- 43_ack_sequencer.md R154, R174: a pending request is completed at the latest when a TIMEOUT is handed over, whatever
readable inputs come before it. That a TIMEOUT comes is the environment's duty (log 24). -/
def Obligations.PendingRequestEndsByTheTimeout : Prop :=
  ∀ (s : State) (inputs later : List Input), s.block.pendValid = true →
    s.inbox = inputs ++ .issue (encode s.cfg .timeout) :: later →
    (∀ x ∈ inputs, isTaken s.cfg x = true) → s.cfg.Valid →
    ∃ t : State, Sys2Proof.core.run (inputs.length + 1) s = .next t ∧ t.inbox = later ∧
      s.trace.countP isResolve < t.trace.countP isResolve

/-- 60_exceptions.md R199, 43_ack_sequencer.md R150: FRAME_ACK and FRAME_DATA are not issued from outside, and ACKSEQ and
PENDSET are used by FRAME_DATA only. Each of the four is turned away by name when the environment issues it, and no
other instruction is. That the model turns it away with a refusal is the model's choice (log 13). -/
def Obligations.StepsOfRxBytesAreNotIssuedFromOutside : Prop :=
  ∀ (s : State) (r : Record) (rest : List Input) (i : Instr), s.inbox = .issue r :: rest → decode s.cfg r = .ok i →
    (step s = .refused .stepOfRxBytes ↔
      (∃ q p, i = .frameAck q p) ∨ (∃ m, i = .frameData m) ∨ (∃ q, i = .ackseq q) ∨ ∃ op, i = .pendset op)
end

