-- ==== Sys2Proof/Laws/Codec.lean ====
section
/-! SUPPORT. The small lemmas of the frame_codec: sums, escapes, searches, slices, and the equation of EXTRACT on its
current buffer. -/

namespace Sys2Proof.Codec

variable (c : Config)

/-! ### CHECKSUM -/

theorem foldl_add_start (l : Bytes) : ∀ a : Byte, l.foldl (fun acc x => acc + x) a = a + checksum l := by
  induction l with
  | nil => intro a; simp [checksum]
  | cons b bs ih =>
    intro a
    have h0 : checksum (b :: bs) = b + checksum bs := by
      simp only [checksum, List.foldl_cons]
      rw [ih]; simp [checksum]
    rw [List.foldl_cons, ih, h0, BitVec.add_assoc]

@[simp] theorem checksum_nil : checksum [] = 0 := rfl

@[simp] theorem checksum_cons (b : Byte) (bs : Bytes) : checksum (b :: bs) = b + checksum bs := by
  simp only [checksum, List.foldl_cons]
  rw [foldl_add_start]; simp [checksum]

@[simp] theorem checksum_append (a b : Bytes) : checksum (a ++ b) = checksum a + checksum b := by
  induction a with
  | nil => simp
  | cons x xs ih => simp [ih, BitVec.add_assoc]

/-! ### ESCAPE and UNESCAPE -/

@[simp] theorem escape_nil : escape c [] = [] := rfl

@[simp] theorem escape_cons (b : Byte) (bs : Bytes) : escape c (b :: bs) = escapeByte c b ++ escape c bs := rfl

@[simp] theorem escape_append (a b : Bytes) : escape c (a ++ b) = escape c a ++ escape c b := by
  induction a with
  | nil => rfl
  | cons x xs ih => simp [ih]

theorem substituteOf_eq_none_iff (b : Byte) : substituteOf c b = none ↔ b ∉ c.reserved := by
  unfold substituteOf
  split <;> simp_all
  split <;> simp_all

theorem originalOf_eq_none_iff (x : Byte) : originalOf c x = none ↔ x ∉ c.substitutes := by
  unfold originalOf
  split <;> simp_all
  split <;> simp_all

theorem escapeByte_of_not_reserved {b : Byte} (h : b ∉ c.reserved) : escapeByte c b = [b] := by
  simp [escapeByte, (substituteOf_eq_none_iff c b).2 h]

@[simp] theorem unescape_nil : unescape c [] = [] := rfl

@[simp] theorem unescape_singleton (b : Byte) : unescape c [b] = [b] := rfl

/-- An escape pair is read as its original (40_codec_bytes.md R94). -/
theorem unescape_pair {x o : Byte} (h : originalOf c x = some o) (rest : Bytes) :
    unescape c (c.escMark :: x :: rest) = o :: unescape c rest := by
  simp [unescape, h]

/-- Anything but an escape pair is read as itself (R94, R95). -/
theorem unescape_literal {b : Byte} {rest : Bytes}
    (h : b ≠ c.escMark ∨ ∀ x, rest.head? = some x → originalOf c x = none) :
    unescape c (b :: rest) = b :: unescape c rest := by
  cases rest with
  | nil => rfl
  | cons x xs =>
    rcases h with h | h
    · simp [unescape, h]
    · by_cases hb : b = c.escMark
      · simp [unescape, hb, h x rfl]
      · simp [unescape, hb]

/-! ### Searches and slices -/

theorem indexFrom_eq_none {v : Byte} {l : Bytes} : ∀ {base}, indexFrom v base l = none ↔ v ∉ l := by
  induction l with
  | nil => simp [indexFrom]
  | cons x xs ih =>
    intro base
    by_cases h : x = v
    · simp [indexFrom, h]
    · simp [indexFrom, h, ih, Ne.symm h]

/-- What a search that succeeds says: the sequence up to the byte holds none of it. -/
theorem indexFrom_eq_some {v : Byte} {l : Bytes} : ∀ {base i : Nat}, indexFrom v base l = some i →
    ∃ g r, l = g ++ v :: r ∧ v ∉ g ∧ i = base + g.length := by
  induction l with
  | nil => simp [indexFrom]
  | cons x xs ih =>
    intro base i h
    by_cases hx : x = v
    · simp [indexFrom, hx] at h
      exact ⟨[], xs, by simp [hx], by simp, by simp [h]⟩
    · simp [indexFrom, hx] at h
      obtain ⟨g, r, h1, h2, h3⟩ := ih h
      exact ⟨x :: g, r, by simp [h1], by simp [h2, Ne.symm hx], by simp [h3]; omega⟩

theorem findByte_eq_none {b : Bytes} {v : Byte} {k : Nat} : findByte b v k = none ↔ v ∉ b.drop k :=
  indexFrom_eq_none

theorem findByte_eq_some {b : Bytes} {v : Byte} {k i : Nat} (h : findByte b v k = some i) :
    ∃ g r, b.drop k = g ++ v :: r ∧ v ∉ g ∧ i = k + g.length :=
  indexFrom_eq_some h

@[simp] theorem slice_zero (b : Bytes) (j : Nat) : slice b 0 j = b.take j := rfl

/-- A slice that starts inside `b` is a slice of what is left from there. -/
theorem slice_of_drop {b : Bytes} {i j : Nat} : slice b i j = (b.drop i).take (j - i) := by
  simp [slice, List.drop_take]

/-! ### EXTRACT on its current buffer -/

/-- The bytes before the first `v` and the bytes after it. -/
def cutAt (v : Byte) : Bytes → Option (Bytes × Bytes)
  | [] => none
  | x :: xs => if x = v then some ([], xs) else (cutAt v xs).map fun p => (x :: p.1, p.2)

theorem cutAt_eq_none {v : Byte} {l : Bytes} : cutAt v l = none ↔ v ∉ l := by
  induction l with
  | nil => simp [cutAt]
  | cons x xs ih =>
    by_cases h : x = v
    · simp [cutAt, h]
    · simp [cutAt, h, ih, Ne.symm h]

theorem cutAt_eq_some {v : Byte} {l : Bytes} : ∀ {g r : Bytes}, cutAt v l = some (g, r) ↔ l = g ++ v :: r ∧ v ∉ g := by
  induction l with
  | nil => simp [cutAt]
  | cons x xs ih =>
    intro g r
    by_cases h : x = v
    · subst h
      cases g with
      | nil => simp [cutAt]
      | cons y ys => simp [cutAt]; intro h1 _ h2; exact absurd h1 h2
    · cases g with
      | nil => simp [cutAt, h]
      | cons y ys =>
        simp only [cutAt, h, if_false, Option.map_eq_some_iff, Prod.mk.injEq, List.cons.injEq, List.cons_append,
          List.mem_cons, not_or]
        constructor
        · rintro ⟨⟨a, b⟩, h1, ⟨rfl, rfl⟩, rfl⟩
          obtain ⟨h3, h4⟩ := ih.1 h1
          exact ⟨⟨rfl, h3⟩, Ne.symm h, h4⟩
        · rintro ⟨⟨rfl, h3⟩, _, h4⟩
          exact ⟨(ys, r), ih.2 ⟨h3, h4⟩, ⟨rfl, rfl⟩, rfl⟩

/-- A search that succeeds cuts what is left at the same place. -/
theorem cutAt_of_findByte {b : Bytes} {v : Byte} {k i : Nat} (h : findByte b v k = some i) :
    ∃ g, cutAt v (b.drop k) = some (g, b.drop (i + 1)) ∧ i = k + g.length ∧ b.drop i = v :: b.drop (i + 1) := by
  obtain ⟨g, r, h1, h2, h3⟩ := findByte_eq_some h
  have h4 : b.drop i = v :: r := by
    rw [h3, ← List.drop_drop, h1]; simp
  have h5 : b.drop (i + 1) = r := by rw [← List.drop_drop, h4]; rfl
  exact ⟨g, by rw [h5]; exact cutAt_eq_some.2 ⟨h1, h2⟩, h3, by rw [h4, h5]⟩

/-- EXTRACT by its four cases on the current buffer (42_codec_extract.md R130 to R134), with a bound on the turns. -/
def scan (c : Config) : Nat → Bytes → ExtractResult
  | 0, b => ⟨none, b⟩
  | turns + 1, b =>
    match cutAt c.startMark b with
    | none => ⟨none, b⟩
    | some (_, r) =>
      match cutAt c.endMark r with
      | none => ⟨none, c.startMark :: r⟩
      | some (i, t) =>
        match unpack c (c.startMark :: (i ++ [c.endMark])) with
        | .message m => ⟨some m, t⟩
        | .malformed _ => scan c turns r

/-- At every turn `buf[cursor ..)` is the current buffer (R136). -/
theorem extractFrom_eq_scan (buf : Bytes) : ∀ n k, extractFrom c buf n k = scan c n (buf.drop k) := by
  intro n
  induction n with
  | zero => intro k; rfl
  | succ n ih =>
    intro k
    rw [extractFrom, scan]
    cases hs : findByte buf c.startMark k with
    | none => simp only [cutAt_eq_none.2 (findByte_eq_none.1 hs)]
    | some s =>
      obtain ⟨g, h1, h2, h3⟩ := cutAt_of_findByte hs
      simp only [h1]
      cases he : findByte buf c.endMark (s + 1) with
      | none => simp only [cutAt_eq_none.2 (findByte_eq_none.1 he), h3]
      | some e =>
        obtain ⟨i, h4, h5, h6⟩ := cutAt_of_findByte he
        have h7 : slice buf s (e + 1) = c.startMark :: (i ++ [c.endMark]) := by
          have h8 : buf.drop (s + 1) = i ++ c.endMark :: buf.drop (e + 1) := (cutAt_eq_some.1 h4).1
          rw [slice_of_drop, h3, h8, show e + 1 - s = (i.length + 1) + 1 by omega, List.take_succ_cons,
            show i ++ c.endMark :: buf.drop (e + 1) = (i ++ [c.endMark]) ++ buf.drop (e + 1) by simp,
            List.take_append_of_le_length (by simp), List.take_of_length_le (by simp)]
        simp only [h4, h7, ih]
        all_goals cases unpack c (c.startMark :: (i ++ [c.endMark])) <;> rfl

theorem cutAt_length {v : Byte} {l g r : Bytes} (h : cutAt v l = some (g, r)) : r.length < l.length := by
  rw [(cutAt_eq_some.1 h).1]; simp; omega

/-- The number of turns does not matter once it exceeds the length of the buffer (R135). -/
theorem scan_stable : ∀ n m b, b.length < n → b.length < m → scan c n b = scan c m b := by
  intro n
  induction n with
  | zero => intro m b h; omega
  | succ n ih =>
    intro m b hn hm
    cases m with
    | zero => omega
    | succ m =>
      rw [scan, scan]
      cases h1 : cutAt c.startMark b with
      | none => rfl
      | some p =>
        have := cutAt_length h1
        simp only [ih m p.2 (by omega) (by omega)]

/-- The equation of EXTRACT on its current buffer: cases A, B, C and D (R131 to R134). -/
theorem extract_eq (b : Bytes) : extract c b =
    match cutAt c.startMark b with
    | none => ⟨none, b⟩
    | some (_, r) =>
      match cutAt c.endMark r with
      | none => ⟨none, c.startMark :: r⟩
      | some (i, t) =>
        match unpack c (c.startMark :: (i ++ [c.endMark])) with
        | .message m => ⟨some m, t⟩
        | .malformed _ => extract c r := by
  have h0 : ∀ b, extract c b = scan c (b.length + 1) b := fun b => by
    simpa [extract] using extractFrom_eq_scan c b (b.length + 1) 0
  rw [h0, scan]
  cases h1 : cutAt c.startMark b with
  | none => rfl
  | some p =>
    have := cutAt_length h1
    simp only [h0 p.2, scan_stable c b.length (p.2.length + 1) p.2 (by omega) (by omega)]

/-- EXTRACT's induction: to prove a fact of every buffer, prove it of one from the fact of what follows its first
START (the decreasing search space of R135). -/
theorem extract_induct {P : Bytes → Prop}
    (h : ∀ b, (∀ g r, cutAt c.startMark b = some (g, r) → P r) → P b) (b : Bytes) : P b := by
  suffices ∀ n b, b.length < n → P b from this (b.length + 1) b (by omega)
  intro n
  induction n with
  | zero => intro b h; omega
  | succ n ih =>
    intro b hb
    exact h b fun g r hr => ih r (by have := cutAt_length hr; omega)

/-- A message leaves a strictly shorter buffer. -/
theorem extract_rest_length {b : Bytes} {m : Message} (h : (extract c b).msg = some m) :
    (extract c b).rest.length < b.length := by
  induction b using extract_induct c with
  | h b ih =>
    rw [extract_eq] at h ⊢
    cases h1 : cutAt c.startMark b with
    | none => simp [h1] at h
    | some p =>
      obtain ⟨g, r⟩ := p
      have hr := cutAt_length h1
      simp only [h1] at h ⊢
      cases h2 : cutAt c.endMark r with
      | none => simp [h2] at h
      | some q =>
        obtain ⟨i, t⟩ := q
        have ht := cutAt_length h2
        simp only [h2] at h ⊢
        cases h3 : unpack c (c.startMark :: (i ++ [c.endMark])) with
        | message m' => simp; omega
        | malformed w =>
          simp only [h3] at h ⊢
          have := ih g r h1 h
          omega

end Sys2Proof.Codec
end

