-- ==== Sys2Proof/Laws/State.lean ====
section
/-! SUPPORT. One lemma per field per update of the state, true by rfl, so that no later proof unfolds a record update. -/

namespace Sys2Proof.Machine

variable (s : State)

@[simp] theorem State.setSendSeq_cfg (v : Byte) : (s.setSendSeq v).cfg = s.cfg := rfl
@[simp] theorem State.setSendSeq_sendSeq (v : Byte) : (s.setSendSeq v).block.sendSeq = v := rfl
@[simp] theorem State.setSendSeq_pendValid (v : Byte) : (s.setSendSeq v).block.pendValid = s.block.pendValid := rfl
@[simp] theorem State.setSendSeq_pendOp (v : Byte) : (s.setSendSeq v).block.pendOp = s.block.pendOp := rfl
@[simp] theorem State.setSendSeq_rxBuf (v : Byte) : (s.setSendSeq v).block.rxBuf = s.block.rxBuf := rfl
@[simp] theorem State.setSendSeq_ready (v : Byte) : (s.setSendSeq v).ready = s.ready := rfl
@[simp] theorem State.setSendSeq_inbox (v : Byte) : (s.setSendSeq v).inbox = s.inbox := rfl
@[simp] theorem State.setSendSeq_trace (v : Byte) : (s.setSendSeq v).trace = s.trace := rfl
@[simp] theorem State.setSendSeq_returned (v : Byte) : (s.setSendSeq v).returned = s.returned := rfl
@[simp] theorem State.setSendSeq_freeIdx (v : Byte) : (s.setSendSeq v).freeIdx = s.freeIdx := rfl

@[simp] theorem State.setPendValid_cfg (v : Bool) : (s.setPendValid v).cfg = s.cfg := rfl
@[simp] theorem State.setPendValid_sendSeq (v : Bool) : (s.setPendValid v).block.sendSeq = s.block.sendSeq := rfl
@[simp] theorem State.setPendValid_pendValid (v : Bool) : (s.setPendValid v).block.pendValid = v := rfl
@[simp] theorem State.setPendValid_pendOp (v : Bool) : (s.setPendValid v).block.pendOp = s.block.pendOp := rfl
@[simp] theorem State.setPendValid_rxBuf (v : Bool) : (s.setPendValid v).block.rxBuf = s.block.rxBuf := rfl
@[simp] theorem State.setPendValid_ready (v : Bool) : (s.setPendValid v).ready = s.ready := rfl
@[simp] theorem State.setPendValid_inbox (v : Bool) : (s.setPendValid v).inbox = s.inbox := rfl
@[simp] theorem State.setPendValid_trace (v : Bool) : (s.setPendValid v).trace = s.trace := rfl
@[simp] theorem State.setPendValid_returned (v : Bool) : (s.setPendValid v).returned = s.returned := rfl
@[simp] theorem State.setPendValid_freeIdx (v : Bool) : (s.setPendValid v).freeIdx = s.freeIdx := rfl

@[simp] theorem State.setPendOp_cfg (v : Byte) : (s.setPendOp v).cfg = s.cfg := rfl
@[simp] theorem State.setPendOp_sendSeq (v : Byte) : (s.setPendOp v).block.sendSeq = s.block.sendSeq := rfl
@[simp] theorem State.setPendOp_pendValid (v : Byte) : (s.setPendOp v).block.pendValid = s.block.pendValid := rfl
@[simp] theorem State.setPendOp_pendOp (v : Byte) : (s.setPendOp v).block.pendOp = v := rfl
@[simp] theorem State.setPendOp_rxBuf (v : Byte) : (s.setPendOp v).block.rxBuf = s.block.rxBuf := rfl
@[simp] theorem State.setPendOp_ready (v : Byte) : (s.setPendOp v).ready = s.ready := rfl
@[simp] theorem State.setPendOp_inbox (v : Byte) : (s.setPendOp v).inbox = s.inbox := rfl
@[simp] theorem State.setPendOp_trace (v : Byte) : (s.setPendOp v).trace = s.trace := rfl
@[simp] theorem State.setPendOp_returned (v : Byte) : (s.setPendOp v).returned = s.returned := rfl
@[simp] theorem State.setPendOp_freeIdx (v : Byte) : (s.setPendOp v).freeIdx = s.freeIdx := rfl

@[simp] theorem State.setRxBuf_cfg (v : Bytes) : (s.setRxBuf v).cfg = s.cfg := rfl
@[simp] theorem State.setRxBuf_sendSeq (v : Bytes) : (s.setRxBuf v).block.sendSeq = s.block.sendSeq := rfl
@[simp] theorem State.setRxBuf_pendValid (v : Bytes) : (s.setRxBuf v).block.pendValid = s.block.pendValid := rfl
@[simp] theorem State.setRxBuf_pendOp (v : Bytes) : (s.setRxBuf v).block.pendOp = s.block.pendOp := rfl
@[simp] theorem State.setRxBuf_rxBuf (v : Bytes) : (s.setRxBuf v).block.rxBuf = v := rfl
@[simp] theorem State.setRxBuf_ready (v : Bytes) : (s.setRxBuf v).ready = s.ready := rfl
@[simp] theorem State.setRxBuf_inbox (v : Bytes) : (s.setRxBuf v).inbox = s.inbox := rfl
@[simp] theorem State.setRxBuf_trace (v : Bytes) : (s.setRxBuf v).trace = s.trace := rfl
@[simp] theorem State.setRxBuf_returned (v : Bytes) : (s.setRxBuf v).returned = s.returned := rfl
@[simp] theorem State.setRxBuf_freeIdx (v : Bytes) : (s.setRxBuf v).freeIdx = s.freeIdx := rfl

@[simp] theorem State.setReady_cfg (v : Bool) : (s.setReady v).cfg = s.cfg := rfl
@[simp] theorem State.setReady_sendSeq (v : Bool) : (s.setReady v).block.sendSeq = s.block.sendSeq := rfl
@[simp] theorem State.setReady_pendValid (v : Bool) : (s.setReady v).block.pendValid = s.block.pendValid := rfl
@[simp] theorem State.setReady_pendOp (v : Bool) : (s.setReady v).block.pendOp = s.block.pendOp := rfl
@[simp] theorem State.setReady_rxBuf (v : Bool) : (s.setReady v).block.rxBuf = s.block.rxBuf := rfl
@[simp] theorem State.setReady_ready (v : Bool) : (s.setReady v).ready = v := rfl
@[simp] theorem State.setReady_inbox (v : Bool) : (s.setReady v).inbox = s.inbox := rfl
@[simp] theorem State.setReady_trace (v : Bool) : (s.setReady v).trace = s.trace := rfl
@[simp] theorem State.setReady_returned (v : Bool) : (s.setReady v).returned = s.returned := rfl
@[simp] theorem State.setReady_freeIdx (v : Bool) : (s.setReady v).freeIdx = s.freeIdx := rfl

@[simp] theorem State.emit_cfg (e : Emission) : (s.emit e).cfg = s.cfg := rfl
@[simp] theorem State.emit_sendSeq (e : Emission) : (s.emit e).block.sendSeq = s.block.sendSeq := rfl
@[simp] theorem State.emit_pendValid (e : Emission) : (s.emit e).block.pendValid = s.block.pendValid := rfl
@[simp] theorem State.emit_pendOp (e : Emission) : (s.emit e).block.pendOp = s.block.pendOp := rfl
@[simp] theorem State.emit_rxBuf (e : Emission) : (s.emit e).block.rxBuf = s.block.rxBuf := rfl
@[simp] theorem State.emit_ready (e : Emission) : (s.emit e).ready = s.ready := rfl
@[simp] theorem State.emit_inbox (e : Emission) : (s.emit e).inbox = s.inbox := rfl
@[simp] theorem State.emit_trace (e : Emission) : (s.emit e).trace = s.trace ++ [e] := rfl
@[simp] theorem State.emit_returned (e : Emission) : (s.emit e).returned = s.returned := rfl
@[simp] theorem State.emit_freeIdx (e : Emission) : (s.emit e).freeIdx = s.freeIdx := rfl

@[simp] theorem State.giveBack_cfg (r : Returned) : (s.giveBack r).cfg = s.cfg := rfl
@[simp] theorem State.giveBack_sendSeq (r : Returned) : (s.giveBack r).block.sendSeq = s.block.sendSeq := rfl
@[simp] theorem State.giveBack_pendValid (r : Returned) : (s.giveBack r).block.pendValid = s.block.pendValid := rfl
@[simp] theorem State.giveBack_pendOp (r : Returned) : (s.giveBack r).block.pendOp = s.block.pendOp := rfl
@[simp] theorem State.giveBack_rxBuf (r : Returned) : (s.giveBack r).block.rxBuf = s.block.rxBuf := rfl
@[simp] theorem State.giveBack_ready (r : Returned) : (s.giveBack r).ready = s.ready := rfl
@[simp] theorem State.giveBack_inbox (r : Returned) : (s.giveBack r).inbox = s.inbox := rfl
@[simp] theorem State.giveBack_trace (r : Returned) : (s.giveBack r).trace = s.trace := rfl
@[simp] theorem State.giveBack_returned (r : Returned) : (s.giveBack r).returned = s.returned ++ [r] := rfl
@[simp] theorem State.giveBack_freeIdx (r : Returned) : (s.giveBack r).freeIdx = s.freeIdx := rfl

@[simp] theorem State.forgetPendOp_cfg : (s.forgetPendOp).cfg = s.cfg := rfl
@[simp] theorem State.forgetPendOp_sendSeq : (s.forgetPendOp).block.sendSeq = s.block.sendSeq := rfl
@[simp] theorem State.forgetPendOp_pendValid : (s.forgetPendOp).block.pendValid = s.block.pendValid := rfl
@[simp] theorem State.forgetPendOp_pendOp : (s.forgetPendOp).block.pendOp = freePendOp s.freeIdx := rfl
@[simp] theorem State.forgetPendOp_rxBuf : (s.forgetPendOp).block.rxBuf = s.block.rxBuf := rfl
@[simp] theorem State.forgetPendOp_ready : (s.forgetPendOp).ready = s.ready := rfl
@[simp] theorem State.forgetPendOp_inbox : (s.forgetPendOp).inbox = s.inbox := rfl
@[simp] theorem State.forgetPendOp_trace : (s.forgetPendOp).trace = s.trace := rfl
@[simp] theorem State.forgetPendOp_returned : (s.forgetPendOp).returned = s.returned := rfl
@[simp] theorem State.forgetPendOp_freeIdx : (s.forgetPendOp).freeIdx = s.freeIdx + 1 := rfl

/-- The interface primitives are emissions. -/
@[simp] theorem txWrite_eq (b : Bytes) : txWrite s b = s.emit (.txWrite b) := rfl
@[simp] theorem resolve_eq (r : Option Message) : resolve s r = s.emit (.resolve r) := rfl
@[simp] theorem deliver_eq (m : Message) (b : Bool) : deliver s m b = s.emit (.deliver m b) := rfl
@[simp] theorem refuse_eq (w : Refused) : refuse s w = s.emit (.refused w) := rfl

/-- Writing the buffer twice is writing it once, and it commutes with what does not touch it. -/
@[simp] theorem State.setRxBuf_setRxBuf (a b : Bytes) : (s.setRxBuf a).setRxBuf b = s.setRxBuf b := rfl
@[simp] theorem State.setRxBuf_self : s.setRxBuf s.block.rxBuf = s := rfl

end Sys2Proof.Machine
end

