-- ==== Sys2Proof/Laws/Ops.lean ====
section
/-! SUPPORT. What each shared operation can do, said once: the slot, the work of FRAME_DATA, the dispatch, the loop of
RX_BYTES. -/

namespace Sys2Proof.Machine

open Codec

/-- Giving up: either a request was pending and it ends with `Resolve(none)`, or nothing happens. -/
theorem giveUpPending_cases (s : State) :
    (s.block.pendValid = true ∧ giveUpPending s = (s.emit (.resolve none)).setPendValid false) ∨
    (s.block.pendValid = false ∧ giveUpPending s = s) := by
  cases h : s.block.pendValid <;> simp [giveUpPending, h]

/-- The work of FRAME_DATA, in its two cases. -/
theorem answerAndDeliver_cases (s : State) (m : Message) :
    (matchesPending s.block.pendValid s.block.pendOp m = true ∧
      answerAndDeliver s m = ((((s.emit (.txWrite (ackFor s.cfg m))).setPendValid false).emit
        (.resolve (some m))).emit (.deliver m true))) ∨
    (matchesPending s.block.pendValid s.block.pendOp m = false ∧
      answerAndDeliver s m = (s.emit (.txWrite (ackFor s.cfg m))).emit (.deliver m false)) := by
  cases h : matchesPending s.block.pendValid s.block.pendOp m <;> simp [answerAndDeliver, h]

/-- A match needs a pending request. -/
theorem matchesPending_pendValid {v : Bool} {op : Byte} {m : Message} (h : matchesPending v op m = true) : v = true := by
  cases v <;> cases hp : m.payload <;> simp_all [matchesPending]

/-- The dispatch (43_ack_sequencer.md R161). -/
theorem handleMessage_ack {s : State} {m : Message} (h : m.dataType = s.cfg.dtAck) :
    handleMessage s m = s.setSendSeq m.seq := by simp [handleMessage, adoptSeq, h]

theorem handleMessage_data {s : State} {m : Message} (h : m.dataType ≠ s.cfg.dtAck) :
    handleMessage s m = answerAndDeliver s m := by simp [handleMessage, h]

/-- What the handling of a message leaves alone. -/
@[simp] theorem handleMessage_cfg (s : State) (m : Message) : (handleMessage s m).cfg = s.cfg := by
  unfold handleMessage; split
  · rfl
  · rcases answerAndDeliver_cases s m with ⟨_, h⟩ | ⟨_, h⟩ <;> simp [h]

@[simp] theorem handleMessage_rxBuf (s : State) (m : Message) :
    (handleMessage s m).block.rxBuf = s.block.rxBuf := by
  unfold handleMessage; split
  · rfl
  · rcases answerAndDeliver_cases s m with ⟨_, h⟩ | ⟨_, h⟩ <;> simp [h]

/-- The handling of a message neither reads nor writes the buffer. -/
theorem handleMessage_setRxBuf (s : State) (m : Message) (b : Bytes) :
    handleMessage (s.setRxBuf b) m = (handleMessage s m).setRxBuf b := by
  by_cases h : m.dataType = s.cfg.dtAck
  · rw [handleMessage_ack h, handleMessage_ack (by simpa using h)]; rfl
  · rw [handleMessage_data h, handleMessage_data (by simpa using h)]
    cases hm : matchesPending s.block.pendValid s.block.pendOp m <;> simp [answerAndDeliver, hm] <;> rfl

/-- The number of turns does not matter once it exceeds the length of the buffer (R162). -/
theorem pump_stable : ∀ n k (s : State), s.block.rxBuf.length < n → s.block.rxBuf.length < k → pump n s = pump k s := by
  intro n
  induction n with
  | zero => intro k s h; omega
  | succ n ih =>
    intro k s hn hk
    cases k with
    | zero => omega
    | succ k =>
      simp only [pump]
      cases h : (extract s.cfg s.block.rxBuf).msg with
      | none => rfl
      | some m =>
        have := extract_rest_length s.cfg h
        exact ih k _ (by simp; omega) (by simp; omega)

/-- RX_BYTES by its first extraction (R160): with no message the rest is stored back; with a message it is handled, and
the work goes on as if no more bytes had arrived. -/
theorem receive_eq (s : State) (chunk : Bytes) : receive s chunk =
    match (extract s.cfg (s.block.rxBuf ++ chunk)).msg with
    | none => s.setRxBuf (extract s.cfg (s.block.rxBuf ++ chunk)).rest
    | some m => receive (handleMessage (s.setRxBuf (extract s.cfg (s.block.rxBuf ++ chunk)).rest) m) [] := by
  rw [receive]
  simp only [pump, State.setRxBuf_rxBuf, State.setRxBuf_cfg, State.setRxBuf_setRxBuf]
  cases h : (extract s.cfg (s.block.rxBuf ++ chunk)).msg with
  | none => rfl
  | some m =>
    have := extract_rest_length s.cfg h
    simp only [receive, List.append_nil]
    rw [State.setRxBuf_self]
    exact pump_stable _ _ _ (by simp; simpa using this) (by simp)

/-- What every message handled and every buffer stored back keep, RX_BYTES keeps. -/
theorem receive_preserves {P : State → Prop} (hbuf : ∀ s b, P s → P (s.setRxBuf b))
    (hmsg : ∀ s m, P s → P (handleMessage s m)) (s : State) (chunk : Bytes) (h : P s) : P (receive s chunk) := by
  have hp : ∀ n s, P s → P (pump n s) := by
    intro n
    induction n with
    | zero => exact fun s h => h
    | succ n ih =>
      intro s h
      simp only [pump]
      cases (extract s.cfg s.block.rxBuf).msg with
      | none => exact hbuf _ _ h
      | some m => exact ih _ (hmsg _ _ (hbuf _ _ h))
  exact hp _ _ (hbuf _ _ h)

@[simp] theorem receive_cfg (s : State) (chunk : Bytes) : (receive s chunk).cfg = s.cfg :=
  receive_preserves (P := fun t => t.cfg = s.cfg) (fun _ _ h => h) (fun t m h => by simpa using h) s chunk rfl

end Sys2Proof.Machine
end

