-- ==== Sys2Proof/Laws/PerInstr.lean ====
section
/-! SUPPORT. The family TableRow: every instruction's record has the format and the leading bytes that its row of
spec/opcode_table.json gives it. -/

namespace Sys2Proof.Laws.TableRow

open Codec

/-- A row of spec/opcode_table.json: an op_id, or the symbolic leading bytes on the wire. -/
inductive Row where
  | op (opId : Nat)
  | wire (leading : Bytes)

/-- The row of each instruction; the type byte of a frame is escaped if it is reserved (30_encoding.md R63). -/
def row (c : Config) : Instr → Row
  | .escape _ => .op 0
  | .unescape _ => .op 1
  | .checksum _ => .op 2
  | .pack _ _ _ => .op 3
  | .unpack _ => .op 4
  | .extract _ => .op 5
  | .sendData _ => .op 6
  | .rxBytes _ => .op 7
  | .frameAck _ _ => .op 8
  | .frameData _ => .op 9
  | .ackseq _ => .op 10
  | .pendset _ => .op 11
  | .timeout => .op 12
  | .clear => .op 13
  | .closed => .op 14
  | .wireFrameData _ _ => .wire (c.startMark :: escapeByte c c.dtData)
  | .wireFrameAck _ _ => .wire (c.startMark :: escapeByte c c.dtAck)
  | .wireEscStart => .wire [c.escMark, c.subStart]
  | .wireEscEnd => .wire [c.escMark, c.subEnd]
  | .wireEscEsc => .wire [c.escMark, c.subEsc]

/-- A record is one of a row. -/
def Fits (r : Record) : Row → Prop
  | .op n => r.format = .op ∧ r.bytes.head? = some (BitVec.ofNat 8 n)
  | .wire l => r.format = .wire ∧ l <+: r.bytes

/-- The family's statement about one instruction. -/
def Statement (i : Instr) : Prop := ∀ c : Config, Fits (encode c i) (row c i)

theorem frame_leading (c : Config) (t q : Byte) (p : Bytes) :
    c.startMark :: escapeByte c t <+: frameBytes c t q p := by
  simp [frameBytes, innerBytes, header, List.append_assoc]

theorem escape (b : Bytes) : Statement (.escape b) := fun _ => ⟨rfl, rfl⟩
theorem unescape (x : Bytes) : Statement (.unescape x) := fun _ => ⟨rfl, rfl⟩
theorem checksum (b : Bytes) : Statement (.checksum b) := fun _ => ⟨rfl, rfl⟩
theorem pack (t q : Byte) (p : Bytes) : Statement (.pack t q p) := fun _ => ⟨rfl, rfl⟩
theorem unpack (raw : Bytes) : Statement (.unpack raw) := fun _ => ⟨rfl, rfl⟩
theorem extract (buf : Bytes) : Statement (.extract buf) := fun _ => ⟨rfl, rfl⟩
theorem sendData (p : Bytes) : Statement (.sendData p) := fun _ => ⟨rfl, rfl⟩
theorem rxBytes (chunk : Bytes) : Statement (.rxBytes chunk) := fun _ => ⟨rfl, rfl⟩
theorem frameAck (q : Byte) (p : Bytes) : Statement (.frameAck q p) := fun _ => ⟨rfl, rfl⟩
theorem frameData (m : Message) : Statement (.frameData m) := fun _ => ⟨rfl, rfl⟩
theorem ackseq (q : Byte) : Statement (.ackseq q) := fun _ => ⟨rfl, rfl⟩
theorem pendset (op : Byte) : Statement (.pendset op) := fun _ => ⟨rfl, rfl⟩
theorem timeout : Statement .timeout := fun _ => ⟨rfl, rfl⟩
theorem clear : Statement .clear := fun _ => ⟨rfl, rfl⟩
theorem closed : Statement .closed := fun _ => ⟨rfl, rfl⟩
theorem wireFrameData (q : Byte) (p : Bytes) : Statement (.wireFrameData q p) := fun c =>
  ⟨rfl, frame_leading c c.dtData q p⟩
theorem wireFrameAck (q : Byte) (p : Bytes) : Statement (.wireFrameAck q p) := fun c =>
  ⟨rfl, frame_leading c c.dtAck q p⟩
theorem wireEscStart : Statement .wireEscStart := fun _ => ⟨rfl, List.prefix_rfl⟩
theorem wireEscEnd : Statement .wireEscEnd := fun _ => ⟨rfl, List.prefix_rfl⟩
theorem wireEscEsc : Statement .wireEscEsc := fun _ => ⟨rfl, List.prefix_rfl⟩

end Sys2Proof.Laws.TableRow
end

