-- ==== Sys2Proof/Laws/Step.lean ====
section
/-! SUPPORT. What a step can do, said once, and the equations of the meanings that later proofs cite. -/

namespace Sys2Proof.Machine

open Codec

/-- A step that answers a next state either had nothing to do, took over a level of `ready`, or executed the decoded
record at the head of the queue. -/
theorem step_cases {s t : State} (h : step s = .next t) :
    (s.inbox = [] ∧ t = s) ∨
    (∃ level rest, s.inbox = .ready level :: rest ∧ t = { s with inbox := rest }.setReady level) ∨
    (∃ x r rest i, s.inbox = x :: rest ∧
      ((x = .issue r ∧ issuedInstr s.cfg r = .ok i) ∨ (x = .inner r ∧ innerInstr s.cfg r = .ok i)) ∧
      exec i { s with inbox := rest } = .next t) := by
  unfold step at h
  split at h
  · exact .inl ⟨‹_›, by simpa using h.symm⟩
  · exact .inr (.inl ⟨_, _, ‹_›, by simpa using h.symm⟩)
  · split at h
    · exact .inr (.inr ⟨_, _, _, _, ‹_›, .inl ⟨rfl, ‹_›⟩, h⟩)
    · cases h
  · split at h
    · exact .inr (.inr ⟨_, _, _, _, ‹_›, .inr ⟨rfl, ‹_›⟩, h⟩)
    · cases h

/-- What a record can ask for: what it decodes to, or, of wire bytes that are no row, RX_BYTES of them. -/
theorem readRecord_cases {c : Config} {r : Record} {i : Instr} (h : readRecord c r = .ok i) :
    decode c r = .ok i ∨ (r.format = .wire ∧ i = .rxBytes r.bytes) := by
  unfold readRecord at h
  split at h
  · exact .inl (by simp_all)
  · split at h
    · exact .inr ⟨‹_›, by simpa using h.symm⟩
    · cases h

/-- A record of the environment is taken exactly when it can be read and R199 lets it be issued from outside. -/
theorem issuedInstr_eq_ok {c : Config} {r : Record} {i : Instr} :
    issuedInstr c r = .ok i ↔ readRecord c r = .ok i ∧ issuedFromOutside i = true := by
  unfold issuedInstr
  cases readRecord c r with
  | error e => simp
  | ok j =>
    by_cases h : issuedFromOutside j = true <;> simp [h] <;> rintro rfl <;> simpa using h

/-- A step inside RX_BYTES is taken exactly when it can be read. -/
theorem innerInstr_eq_ok {c : Config} {r : Record} {i : Instr} : innerInstr c r = .ok i ↔ readRecord c r = .ok i := by
  unfold innerInstr
  cases readRecord c r <;> simp

/-- SEND_DATA that answers a next state was refused for a reason or accepted. -/
theorem execSendData_cases (p : Bytes) (s : State) :
    (∃ w, sendRefusal s p = some w ∧ exec (.sendData p) s = .next (s.emit (.refused w))) ∨
    (sendRefusal s p = none ∧ exec (.sendData p) s = .next (sendAccepted s p)) := by
  cases h : sendRefusal s p <;> simp [exec, execSendData, h]

/-- SEND_DATA is not refused exactly when it is enabled (43_ack_sequencer.md R150). -/
theorem sendRefusal_eq_none {s : State} {p : Bytes} : sendRefusal s p = none ↔
    s.ready = true ∧ s.block.pendValid = false ∧ p ≠ [] ∧ p.length ≤ maxPayload := by
  unfold sendRefusal
  split <;> [simp_all; skip]
  split <;> [simp_all; skip]
  split <;> [simp_all; skip]
  split <;> simp_all

/-- A wire frame with an encoding arrives as its bytes. -/
theorem receiveFrame_eq {s : State} {t q : Byte} {p : Bytes} (h : p.length ≤ maxPayload) :
    receiveFrame t q p s = .next (receive s (frameBytes s.cfg t q p)) := by
  simp [receiveFrame, pack, h]

/-- A frame of a named type arrives as its bytes, whenever the wire row answers a next state. -/
theorem receiveFrame_next {s t : State} {ty q : Byte} {p : Bytes} (h : receiveFrame ty q p s = .next t) :
    t = receive s (frameBytes s.cfg ty q p) := by
  unfold receiveFrame pack at h
  split at h <;> simp_all

/-- FRAME_DATA of a message that is no ACK. -/
theorem execFrameData_eq {s : State} {m : Message} (h : m.dataType ≠ s.cfg.dtAck) :
    exec (.frameData m) s = .next (answerAndDeliver s m) := by simp [exec, execFrameData, h]

/-- Every way in which an instruction answers a next state, with what that state is. -/
theorem exec_cases {i : Instr} {s t : State} (h : exec i s = .next t) :
    ((∃ r, t = s.giveBack r) ∧ ((∃ b, i = .escape b) ∨ (∃ x, i = .unescape x) ∨ (∃ b, i = .checksum b) ∨
      (∃ ty q p, i = .pack ty q p) ∨ (∃ raw, i = .unpack raw) ∨ (∃ buf, i = .extract buf) ∨ (∃ q, i = .ackseq q) ∨
      ∃ op, i = .pendset op)) ∨
    (∃ chunk, t = receive s chunk ∧ (i = .rxBytes chunk ∨
      (∃ q p, i = .wireFrameData q p ∧ chunk = frameBytes s.cfg s.cfg.dtData q p) ∨
      (∃ q p, i = .wireFrameAck q p ∧ chunk = frameBytes s.cfg s.cfg.dtAck q p) ∨
      (i = .wireEscStart ∧ chunk = [s.cfg.escMark, s.cfg.subStart]) ∨
      (i = .wireEscEnd ∧ chunk = [s.cfg.escMark, s.cfg.subEnd]) ∨
      (i = .wireEscEsc ∧ chunk = [s.cfg.escMark, s.cfg.subEsc]))) ∨
    (∃ p w, i = .sendData p ∧ sendRefusal s p = some w ∧ t = s.emit (.refused w)) ∨
    (∃ p, i = .sendData p ∧ sendRefusal s p = none ∧ t = sendAccepted s p) ∨
    (∃ q p, i = .frameAck q p ∧ t = s.setSendSeq q) ∨
    (∃ m, i = .frameData m ∧ m.dataType ≠ s.cfg.dtAck ∧ t = answerAndDeliver s m) ∨
    (i = .timeout ∧ t = giveUpPending s) ∨
    (i = .clear ∧ t = (((giveUpPending s).setRxBuf []).setSendSeq 0).forgetPendOp) ∨
    (i = .closed ∧ t = s.setReady false) := by
  cases i
  case sendData p =>
    rcases execSendData_cases p s with ⟨w, hw, he⟩ | ⟨hw, he⟩
    · exact .inr (.inr (.inl ⟨p, w, rfl, hw, by simpa [he] using h.symm⟩))
    · exact .inr (.inr (.inr (.inl ⟨p, rfl, hw, by simpa [he] using h.symm⟩)))
  case frameData m =>
    by_cases hm : m.dataType = s.cfg.dtAck
    · simp [exec, execFrameData, hm] at h
    · exact .inr (.inr (.inr (.inr (.inr (.inl ⟨m, rfl, hm, by simpa [execFrameData_eq hm] using h.symm⟩)))))
  case frameAck q p => injection h with h; exact .inr (.inr (.inr (.inr (.inl ⟨q, p, rfl, h.symm⟩))))
  case timeout => injection h with h; exact .inr (.inr (.inr (.inr (.inr (.inr (.inl ⟨rfl, h.symm⟩))))))
  case clear => injection h with h; exact .inr (.inr (.inr (.inr (.inr (.inr (.inr (.inl ⟨rfl, h.symm⟩)))))))
  case closed => injection h with h; exact .inr (.inr (.inr (.inr (.inr (.inr (.inr (.inr ⟨rfl, h.symm⟩)))))))
  case rxBytes b => injection h with h; exact .inr (.inl ⟨_, h.symm, by simp⟩)
  case wireFrameData q p => exact .inr (.inl ⟨_, receiveFrame_next h, by simp⟩)
  case wireFrameAck q p => exact .inr (.inl ⟨_, receiveFrame_next h, by simp⟩)
  case wireEscStart => injection h with h; exact .inr (.inl ⟨_, h.symm, by simp⟩)
  case wireEscEnd => injection h with h; exact .inr (.inl ⟨_, h.symm, by simp⟩)
  case wireEscEsc => injection h with h; exact .inr (.inl ⟨_, h.symm, by simp⟩)
  case pack ty q p =>
    simp only [exec, execPack] at h
    split at h <;> injection h with h <;> exact .inl ⟨⟨_, h.symm⟩, by simp⟩
  all_goals injection h with h; exact .inl ⟨⟨_, h.symm⟩, by simp⟩

end Sys2Proof.Machine
end

