-- ==== Sys2Proof/Laws/Safety.lean ====
section
/-! SUPPORT. The small lemmas of Safety.lean: the messages in a buffer, and which instructions bring bytes. -/

namespace Sys2Proof.Safety

open Sys2Proof.Machine Codec

variable (c : Config)

/-- The number of turns does not matter once it exceeds the length of the buffer. -/
theorem extractAll_stable : ∀ n k buf, buf.length < n → buf.length < k → extractAll c n buf = extractAll c k buf := by
  intro n
  induction n with
  | zero => intro k buf h; omega
  | succ n ih =>
    intro k buf hn hk
    cases k with
    | zero => omega
    | succ k =>
      simp only [extractAll]
      cases h : (extract c buf).msg with
      | none => rfl
      | some m =>
        have := extract_rest_length c h
        simp only [ih k _ (show (extract c buf).rest.length < n by omega) (by omega)]

/-- A buffer without a frame holds no message. -/
theorem messagesIn_of_none {buf : Bytes} (h : (extract c buf).msg = none) : messagesIn c buf = [] := by
  simp [messagesIn, extractAll, h]

/-- The first message, then those of what is left. -/
theorem messagesIn_of_some {buf : Bytes} {m : Message} (h : (extract c buf).msg = some m) :
    messagesIn c buf = m :: messagesIn c (extract c buf).rest := by
  have := extract_rest_length c h
  simp only [messagesIn, extractAll, h]
  rw [extractAll_stable c _ ((extract c buf).rest.length + 1) _ (by omega) (by omega)]
  rfl

/-- Bytes arrive exactly in the instructions that have arriving bytes. -/
theorem arrivingBytes_isSome (i : Instr) : (arrivingBytes c i).isSome = receivesBytes i := by cases i <;> rfl

/-- An instruction in which bytes arrive does what those bytes do. -/
theorem exec_of_arrivingBytes {i : Instr} {s t : State} {chunk : Bytes} (h : exec i s = .next t)
    (ha : arrivingBytes s.cfg i = some chunk) : t = receive s chunk := by
  cases i <;> simp only [arrivingBytes, Option.some.injEq, reduceCtorEq] at ha <;> subst ha
  case wireFrameData q p => exact receiveFrame_next h
  case wireFrameAck q p => exact receiveFrame_next h
  all_goals injection h with h; exact h.symm

end Sys2Proof.Safety
end

