-- ==== Sys2Proof/Tests/Slice0.lean ====
section
/-! SUPPORT. Small tests, all with results from the spec (its rules, its opcode table, its vectors in
95_test_vectors.md), and for each obligation with hypotheses a named witness that meets them. -/

set_option Elab.async false

namespace Sys2Proof.Tests

open Sys2Proof Sys2Proof.Machine Sys2Proof.Safety Codec

/-! ### Helpers -/

/-- The spec's state line (send_seq, pend_valid, pend_op, rx_buf) of V-SEQ, with `ready` true and the default bytes. -/
def blk (seq : Byte) (valid : Bool) (op : Byte) (rx : Bytes) : State :=
  { State.reset with block := ⟨seq, valid, op, rx⟩, ready := true }

/-- The next state, if there is one. -/
def nextOf (o : Host.Outcome State Fault Refusal) : Option State :=
  match o with
  | .next t => some t
  | _ => none

/-- The refusal, if there is one. -/
def refusalOf (o : Host.Outcome State Fault Refusal) : Option Refusal :=
  match o with
  | .refused r => some r
  | _ => none

/-- The instruction a record decodes to, if any. -/
def decoded (r : Record) : Option Instr :=
  match decode Config.default r with
  | .ok i => some i
  | .error _ => none

/-- What one instruction returns from a state without history. -/
def returns (i : Instr) (s : State) : Option (List Returned) := (nextOf (exec i s)).map (·.returned)

/-- What one instruction emits, and the block it leaves. -/
def does (i : Instr) (s : State) : Option (List Emission × Block) := (nextOf (exec i s)).map fun t => (t.trace, t.block)

/-- `F1`, `A0` and `A1` of V-EXTRACT. -/
def f1 : Bytes := [0x3E, 0x0C, 0x00, 0x00, 0x00, 0x00, 0x04, 0x23, 0x00, 0x4D, 0x01, 0x81, 0x3C]
def a0 : Bytes := [0x3E, 0x01, 0x00, 0x00, 0x00, 0x00, 0x00, 0x01, 0x3C]
def a1 : Bytes := [0x3E, 0x01, 0x01, 0x00, 0x00, 0x00, 0x00, 0x02, 0x3C]

/-- The message of `F1`. -/
def m1 : Message := ⟨0x0C, 0x00, [0x23, 0x00, 0x4D, 0x01]⟩

/-! ### WellFormed refuses ill-formed terms -/

theorem test_wellFormed_refuses_ack_typed_frameData : wellFormed Config.default (.frameData ⟨0x01, 0x00, []⟩) = false := by
  decide
/-- The shortest payload without an encoding, and what the check says of it. -/
theorem test_wellFormed_refuses_long_frames (p : Bytes) (h : p.length = 2 ^ 32) :
    wellFormed Config.default (.wireFrameData 0 p) = false ∧ wellFormed Config.default (.wireFrameAck 0 p) = false :=
  ⟨decide_eq_false (by rw [h]; decide), decide_eq_false (by rw [h]; decide)⟩
theorem test_a_payload_of_that_length_exists : (List.replicate (2 ^ 32) (0 : Byte)).length = 2 ^ 32 :=
  List.length_replicate

/-! ### Decoding: words written out from 30_encoding.md R75 (op_id) and R60 to R69 (wire, default bytes) -/

theorem test_decode_escape : decoded ⟨.op, [0x00, 0x3C]⟩ = some (.escape [0x3C]) := by decide +kernel
theorem test_decode_unescape : decoded ⟨.op, [0x01, 0x3D, 0x2C]⟩ = some (.unescape [0x3D, 0x2C]) := by decide +kernel
theorem test_decode_checksum : decoded ⟨.op, [0x02]⟩ = some (.checksum []) := by decide +kernel
theorem test_decode_pack : decoded ⟨.op, [0x03, 0x0C, 0x01, 0x22, 0x23]⟩ = some (.pack 0x0C 0x01 [0x22, 0x23]) := by
  decide +kernel
theorem test_decode_unpack : decoded ⟨.op, [0x04, 0x3E, 0x3C]⟩ = some (.unpack [0x3E, 0x3C]) := by decide +kernel
theorem test_decode_extract : decoded ⟨.op, [0x05, 0x3E]⟩ = some (.extract [0x3E]) := by decide +kernel
theorem test_decode_sendData : decoded ⟨.op, [0x06, 0x66, 0x02]⟩ = some (.sendData [0x66, 0x02]) := by decide +kernel
theorem test_decode_rxBytes : decoded ⟨.op, [0x07, 0x3E, 0x0C]⟩ = some (.rxBytes [0x3E, 0x0C]) := by decide +kernel
theorem test_decode_frameAck : decoded ⟨.op, [0x08, 0x07, 0xAA]⟩ = some (.frameAck 0x07 [0xAA]) := by decide +kernel
theorem test_decode_frameData : decoded ⟨.op, [0x09, 0x0C, 0x09, 0x31, 0x05]⟩ =
    some (.frameData ⟨0x0C, 0x09, [0x31, 0x05]⟩) := by decide +kernel
theorem test_decode_ackseq : decoded ⟨.op, [0x0A, 0x01]⟩ = some (.ackseq 0x01) := by decide +kernel
theorem test_decode_pendset : decoded ⟨.op, [0x0B, 0xFF]⟩ = some (.pendset 0xFF) := by decide +kernel
theorem test_decode_timeout : decoded ⟨.op, [0x0C]⟩ = some .timeout := by decide +kernel
theorem test_decode_clear : decoded ⟨.op, [0x0D]⟩ = some .clear := by decide +kernel
theorem test_decode_closed : decoded ⟨.op, [0x0E]⟩ = some .closed := by decide +kernel
/-- V-PACK row 9: reserved bytes in the payload are escaped. -/
theorem test_decode_wireFrameData :
    decoded ⟨.wire, [0x3E, 0x0C, 0x01, 0x00, 0x00, 0x00, 0x03, 0x3D, 0x2C, 0x3D, 0x2D, 0x3D, 0x2E, 0xC7, 0x3C]⟩ =
      some (.wireFrameData 0x01 [0x3C, 0x3D, 0x3E]) := by decide +kernel
/-- V-PACK row 7: sequence byte and checksum are escaped. -/
theorem test_decode_wireFrameAck :
    decoded ⟨.wire, [0x3E, 0x01, 0x3D, 0x2C, 0x00, 0x00, 0x00, 0x00, 0x3D, 0x2D, 0x3C]⟩ =
      some (.wireFrameAck 0x3C []) := by decide +kernel
theorem test_decode_wireEscStart : decoded ⟨.wire, [0x3D, 0x2E]⟩ = some .wireEscStart := by decide +kernel
theorem test_decode_wireEscEnd : decoded ⟨.wire, [0x3D, 0x2C]⟩ = some .wireEscEnd := by decide +kernel
theorem test_decode_wireEscEsc : decoded ⟨.wire, [0x3D, 0x2D]⟩ = some .wireEscEsc := by decide +kernel

/-- What is no instruction is rejected by name: no bytes, op_id 15, bits above op_id, missing and extra operands, an
ACK-typed FRAME_DATA, a pair with a follower that is no substitute, a bad checksum, V-UNPACK row 14 (accepted by UNPACK,
never made by PACK), a third data_type. -/
theorem test_decode_rejects :
    decode Config.default ⟨.op, []⟩ = .error .emptyRecord ∧
    decode Config.default ⟨.op, [0x0F]⟩ = .error (.unknownOperation 0x0F) ∧
    decode Config.default ⟨.op, [0x10]⟩ = .error (.unknownOperation 0x10) ∧
    decode Config.default ⟨.op, [0x03, 0x0C]⟩ = .error .missingOperand ∧
    decode Config.default ⟨.op, [0x0C, 0x00]⟩ = .error .trailingBytes ∧
    decode Config.default ⟨.op, [0x09, 0x01, 0x00]⟩ = .error .ackTypedOperand := ⟨rfl, rfl, rfl, rfl, rfl, rfl⟩
theorem test_decode_rejects_wire :
    decoded ⟨.wire, []⟩ = none ∧ decoded ⟨.wire, [0x3D, 0x2B]⟩ = none ∧
    decoded ⟨.wire, [0x3E, 0x0C, 0x00, 0x00, 0x00, 0x00, 0x00, 0x0D, 0x3C]⟩ = none ∧
    decoded ⟨.wire, [0x3E, 0x0C, 0x00, 0x00, 0x00, 0x00, 0x01, 0x3E, 0x4B, 0x3C]⟩ = none ∧
    decoded ⟨.wire, [0x3E, 0x22, 0x02, 0x00, 0x00, 0x00, 0x00, 0x24, 0x3C]⟩ = none := by decide +kernel

/-- The words of spec/opcode_table.json: one byte with the op_id; the first two wire bytes, first byte lowest. -/
theorem test_table_words_of_operations :
    [0, 1, 2, 3, 4, 5, 6, 7, 8, 9, 10, 11, 12, 13, 14, 15].map (decodeTableWord 8) =
      [some (.escape []), some (.unescape []), some (.checksum []), some (.pack 0 0 []), some (.unpack []),
       some (.extract []), some (.sendData []), some (.rxBytes []), some (.frameAck 0 []), some (.frameData ⟨0, 0, []⟩),
       some (.ackseq 0), some (.pendset 0), some .timeout, some .clear, some .closed, none] := by decide +kernel
theorem test_table_words_on_the_wire :
    [0x0C3E, 0x013E, 0x2E3D, 0x2C3D, 0x2D3D, 0x2B3D].map (decodeTableWord 16) =
      [some (.wireFrameData 0 []), some (.wireFrameAck 0 []), some .wireEscStart, some .wireEscEnd, some .wireEscEsc,
       none] := by decide +kernel
/-- The queued table word is what the very next step runs: V-PACK row 8 arrives and is acknowledged. -/
theorem test_withFetchWord_runs :
    (nextOf (step (State.reset.withFetchWord 16 0x0C3E))).map (fun t => (t.trace, t.inbox)) =
      some ([.txWrite a1, .deliver ⟨0x0C, 0x00, []⟩ false], []) := by decide +kernel

/-- A step of RX_BYTES is queued as such, and the very next step runs it (R163: send_seq becomes 0). -/
theorem test_withFetchWord_runs_inner : let s := { blk 7 true 0x22 [] with inbox := [] }.withFetchWord 8 8
    s.inbox = [.inner ⟨.op, [8, 0]⟩] ∧
      (nextOf (step s)).map (·.block) = some ⟨0, true, 0x22, []⟩ := by decide +kernel
/-- R199: the environment cannot issue it. -/
theorem test_step_turns_away_inner :
    refusalOf (step { State.reset with inbox := [.issue ⟨.op, [8, 0]⟩] }) = some .stepOfRxBytes := by decide +kernel
/-- R41, V-UNPACK row 14 on the wire: no row of the table, yet the bytes arrive; the message is acknowledged. -/
theorem test_step_wire_noise_arrives :
    (nextOf (step { State.reset with inbox :=
        [.issue ⟨.wire, [0x3E, 0x0C, 0x00, 0x00, 0x00, 0x00, 0x01, 0x3E, 0x4B, 0x3C]⟩] })).map (·.trace) =
      some [.txWrite a1, .deliver ⟨0x0C, 0x00, [0x3E]⟩ false] := by decide +kernel
/-- R75: op_id 15 names no operation. -/
theorem test_step_refuses_no_operation :
    refusalOf (step { State.reset with inbox := [.issue ⟨.op, [0x0F]⟩] }) = some .undecodable := by decide +kernel

/-! ### Instructions, from 95_test_vectors.md -/

/-- V-ESCAPE rows 8 and 9. -/
theorem test_escape_reserved : returns (.escape [0x00, 0x3C, 0x3D, 0x3E, 0xFF]) State.reset =
    some [.bytes [0x00, 0x3D, 0x2C, 0x3D, 0x2D, 0x3D, 0x2E, 0xFF]] := by decide +kernel
theorem test_escape_substitute_is_data : returns (.escape [0x3D, 0x2C]) State.reset =
    some [.bytes [0x3D, 0x2D, 0x2C]] := by decide +kernel
/-- V-UNESCAPE rows 8 and 12. -/
theorem test_unescape_stray_then_pair : returns (.unescape [0x3D, 0x3D, 0x2E]) State.reset =
    some [.bytes [0x3D, 0x3E]] := by decide +kernel
theorem test_unescape_starts_afresh : returns (.unescape [0x2C, 0x3D, 0x2D, 0x2E]) State.reset =
    some [.bytes [0x2C, 0x3D, 0x2E]] := by decide +kernel
/-- V-CHECKSUM rows 4 and 7. -/
theorem test_checksum_wraps : returns (.checksum [0xFF, 0x01]) State.reset = some [.byte 0x00] := by decide +kernel
theorem test_checksum_sum : returns (.checksum [0x0C, 0x00, 0x00, 0x00, 0x00, 0x04, 0x23, 0x00, 0x4D, 0x01]) State.reset =
    some [.byte 0x81] := by decide +kernel
/-- V-PACK rows 14 and 22 (the length field is big-endian). -/
theorem test_pack_all_reserved : returns (.pack 0x3E 0x3D [0x3C]) State.reset =
    some [.frame [0x3E, 0x3D, 0x2E, 0x3D, 0x2D, 0x00, 0x00, 0x00, 0x01, 0x3D, 0x2C, 0xB8, 0x3C]] := by decide +kernel
theorem test_pack_length_big_endian : returns (.pack 0x0C 0x00 (List.replicate 256 0x00)) State.reset =
    some [.frame ([0x3E, 0x0C, 0x00, 0x00, 0x00, 0x01, 0x00] ++ List.replicate 256 0x00 ++ [0x0D, 0x3C])] := by
  decide +kernel
/-- V-UNPACK rows 16 and 21. -/
theorem test_unpack_stray_escape : returns (.unpack [0x3E, 0x0C, 0x00, 0x00, 0x00, 0x00, 0x01, 0x3D, 0x4A, 0x3C])
    State.reset = some [.unpacked (.message ⟨0x0C, 0x00, [0x3D]⟩)] := by decide +kernel
theorem test_unpack_length_byte_order : returns (.unpack [0x3E, 0x0C, 0x00, 0x01, 0x00, 0x00, 0x00, 0x0D, 0x3C])
    State.reset = some [.unpacked (.malformed .length)] := by decide +kernel
/-- V-EXTRACT rows 13 and 9. -/
theorem test_extract_resynchronises : returns (.extract (f1.take 12 ++ a1)) State.reset =
    some [.extracted ⟨some ⟨0x01, 0x01, []⟩, []⟩] := by decide +kernel
theorem test_extract_two_false_frames : returns (.extract [0x3E, 0x3C, 0x3E, 0x3C]) State.reset =
    some [.extracted ⟨none, [0x3C]⟩] := by decide +kernel
/-- V-SEQ rows 3 and 7. -/
theorem test_sendData_uses_send_seq : does (.sendData [0xFF]) (blk 0x07 false 0x00 []) =
    some ([.txWrite [0x3E, 0x0C, 0x07, 0x00, 0x00, 0x00, 0x01, 0xFF, 0x13, 0x3C], .accepted],
      ⟨0x07, true, 0xFF, []⟩) := by decide +kernel
theorem test_sendData_first_refusal : does (.sendData []) { blk 0x00 true 0x66 [] with ready := false } =
    some ([.refused .notConnected], ⟨0x00, true, 0x66, []⟩) := by decide +kernel
/-- V-SEQ rows 19 and 26 (its second chunk). -/
theorem test_rxBytes_duplicate :
    does (.rxBytes ([0x3E, 0x0C, 0x01, 0x00, 0x00, 0x00, 0x01, 0xFF, 0x0D, 0x3C] ++
        [0x3E, 0x0C, 0x01, 0x00, 0x00, 0x00, 0x01, 0xFF, 0x0D, 0x3C])) (blk 0x00 true 0xFF []) =
      some ([.txWrite a0, .resolve (some ⟨0x0C, 0x01, [0xFF]⟩), .deliver ⟨0x0C, 0x01, [0xFF]⟩ true, .txWrite a0,
        .deliver ⟨0x0C, 0x01, [0xFF]⟩ false], ⟨0x00, false, 0xFF, []⟩) := by decide +kernel
theorem test_rxBytes_second_chunk : does (.rxBytes [0x00, 0x00, 0x02, 0x3C]) (blk 0 false 0 [0x3E, 0x01, 0x01, 0x00, 0x00]) =
    some ([], ⟨0x01, false, 0x00, []⟩) := by decide +kernel
/-- R164 (a), (c). -/
theorem test_frameAck_adopts_any_seq : does (.frameAck 0x07 [0xAA]) (blk 0x00 true 0x22 []) =
    some ([], ⟨0x07, true, 0x22, []⟩) := by decide +kernel
/-- V-SEQ rows 11 and 16, as the FRAME_DATA step. -/
theorem test_frameData_match : does (.frameData m1) (blk 0x01 true 0x22 []) =
    some ([.txWrite a1, .resolve (some m1), .deliver m1 true], ⟨0x01, false, 0x22, []⟩) := by decide +kernel
theorem test_frameData_no_wrap : does (.frameData ⟨0x0C, 0x00, [0x00]⟩) (blk 0x07 true 0xFF []) =
    some ([.txWrite a1, .deliver ⟨0x0C, 0x00, [0x00]⟩ false], ⟨0x07, true, 0xFF, []⟩) := by decide +kernel
/-- V-ACKSEQ. -/
theorem test_ackseq_zero : returns (.ackseq 0x00) State.reset = some [.byte 0x01] := by decide +kernel
theorem test_ackseq_out_of_range : returns (.ackseq 0x02) State.reset = some [.byte 0x00] := by decide +kernel
/-- V-PENDSET. -/
theorem test_pendset_top : returns (.pendset 0xFF) State.reset = some [.byteSet [0xFF]] := by decide +kernel
theorem test_pendset_below_top : returns (.pendset 0xFE) State.reset = some [.byteSet [0xFE, 0xFF]] := by decide +kernel
/-- V-SEQ rows 20 and 21. -/
theorem test_timeout_pending : does .timeout (blk 0x00 true 0x22 [0x3E, 0x0C]) =
    some ([.resolve none], ⟨0x00, false, 0x22, [0x3E, 0x0C]⟩) := by decide +kernel
theorem test_timeout_idle : does .timeout (blk 0x00 false 0x00 []) = some ([], ⟨0x00, false, 0x00, []⟩) := by
  decide +kernel
/-- V-SEQ rows 22 and 23; `pend_op` is not looked at. -/
theorem test_clear_pending : (nextOf (exec .clear (blk 0x01 true 0x22 [0x3E, 0x0C]))).map
    (fun t => (t.trace, t.block.sendSeq, t.block.pendValid, t.block.rxBuf)) =
      some ([.resolve none], 0x00, false, []) := rfl
theorem test_clear_idle : (nextOf (exec .clear (blk 0x07 false 0x00 [0x55]))).map
    (fun t => (t.trace, t.block.sendSeq, t.block.pendValid, t.block.rxBuf)) = some ([], 0x00, false, []) := rfl
/-- V-SEQ row 24 and P4 step 5. -/
theorem test_closed : (nextOf (exec .closed (blk 0x01 true 0x22 [0x3E, 0x0C]))).map
    (fun t => (t.trace, t.block, t.ready)) = some ([], ⟨0x01, true, 0x22, [0x3E, 0x0C]⟩, false) := rfl
/-- V-SEQ row 11: `F1` is the data frame with seq 0 and this payload. -/
theorem test_wireFrameData : does (.wireFrameData 0x00 [0x23, 0x00, 0x4D, 0x01]) (blk 0x01 true 0x22 []) =
    some ([.txWrite a1, .resolve (some m1), .deliver m1 true], ⟨0x01, false, 0x22, []⟩) := by decide +kernel
/-- V-SEQ row 10: an ACK frame with a payload. -/
theorem test_wireFrameAck : does (.wireFrameAck 0x01 [0xAA]) (blk 0x07 false 0x00 []) =
    some ([], ⟨0x01, false, 0x00, []⟩) := by decide +kernel
/-- R63, R132: an escape pair after a pending START joins it. -/
theorem test_wireEscStart : does .wireEscStart (blk 0x00 false 0x00 [0x3E, 0x0C]) =
    some ([], ⟨0x00, false, 0x00, [0x3E, 0x0C, 0x3D, 0x2E]⟩) := by decide +kernel
theorem test_wireEscEnd : does .wireEscEnd (blk 0x00 false 0x00 [0x3E, 0x0C]) =
    some ([], ⟨0x00, false, 0x00, [0x3E, 0x0C, 0x3D, 0x2C]⟩) := by decide +kernel
theorem test_wireEscEsc : does .wireEscEsc (blk 0x00 false 0x00 [0x3E, 0x0C]) =
    some ([], ⟨0x00, false, 0x00, [0x3E, 0x0C, 0x3D, 0x2D]⟩) := by decide +kernel
/-- R150: an ACK-typed message is no operand of FRAME_DATA. -/
theorem test_frameData_stops : refusalOf (exec (.frameData ⟨0x01, 0x00, []⟩) State.reset) = some .ackTypedOperand := by
  decide +kernel

/-! ### Witnesses: for each obligation with hypotheses, a state and operands that meet them, clause by clause -/

theorem witness_config_valid : Config.default.Valid := by decide
theorem witness_reset_inv : Inv State.reset := by decide
theorem witness_reset_slot_accounted : SlotAccounted State.reset := by decide

/-- The longest payload with an encoding, and the shortest without one. -/
theorem witness_payload_lengths : (List.replicate (2 ^ 32 - 1) (0 : Byte)).length ≤ 2 ^ 32 - 1 ∧
    2 ^ 32 - 1 < (List.replicate (2 ^ 32) (0 : Byte)).length ∧ ([0x22] : Bytes).length ≤ 2 ^ 32 - 1 := by
  rw [List.length_replicate, List.length_replicate]; decide

theorem witness_StepRunsTheDecodedOperation :
    decoded ⟨.op, [12]⟩ = some .timeout ∧ issuedFromOutside .timeout = true ∧
    (State.reset.withFetchWord 8 12).inbox = .issue ⟨.op, [12]⟩ :: [] ∧
    decoded ⟨.op, [10, 0]⟩ = some (.ackseq 0) ∧ (State.reset.withFetchWord 8 10).inbox = .inner ⟨.op, [10, 0]⟩ :: [] ∧
    decode State.reset.cfg ⟨.op, [0x0F]⟩ = .error (.unknownOperation 0x0F) ∧
    decode State.reset.cfg ⟨.wire, []⟩ = .error .emptyRecord ∧ decoded ⟨.wire, [0x3D, 0x2B]⟩ = none ∧
    { State.reset with inbox := [.ready true] }.inbox = .ready true :: [] ∧ State.reset.inbox = [] := by
  refine ⟨?_, ?_, ?_, ?_, ?_, rfl, rfl, ?_, rfl, rfl⟩ <;> decide +kernel
theorem witness_StepsOfRxBytesAreNotIssuedFromOutside :
    let s := { State.reset with inbox := [.issue ⟨.op, [9, 0x0C, 0]⟩] }
    s.inbox = .issue ⟨.op, [9, 0x0C, 0]⟩ :: [] ∧ decoded ⟨.op, [9, 0x0C, 0]⟩ = some (.frameData ⟨0x0C, 0, []⟩) ∧
    refusalOf (step s) = some .stepOfRxBytes := by decide +kernel
theorem witness_DecodeOfEncodeIsTheInstruction : Config.default.Valid ∧
    wellFormed Config.default (.wireFrameData 0x3C [0x3E]) = true ∧
    wellFormed Config.default (.frameData ⟨0x00, 0xFF, []⟩) = true := by decide +kernel
theorem witness_EncodeOfDecodeIsTheRecord : Config.default.Valid ∧
    decoded ⟨.wire, a0⟩ = some (.wireFrameAck 0 []) ∧ decoded ⟨.op, [0x0A, 0xFF]⟩ = some (.ackseq 0xFF) := by
  decide +kernel
theorem witness_WellFormedInstructionsComplete : wellFormed State.reset.cfg (.wireFrameAck 0xFF []) = true ∧
    wellFormed State.reset.cfg (.frameData ⟨0x02, 0, []⟩) = true := by decide +kernel
theorem witness_SubstituteMapsAreInverse : Config.default.Valid ∧ (0x3E : Byte) ∈ Config.default.reserved ∧
    (0x2E : Byte) ∈ Config.default.substitutes ∧ (0x2E : Byte) ∉ Config.default.reserved ∧
    (0x3E : Byte) ∉ Config.default.substitutes := by decide
theorem witness_PureOperationsOnlyReturn : isPure (.escape []) = true ∧ isPure (.pendset 0xFF) = true := by decide
/-- EscapeOutputHasNoMarkers: the configuration, and an ESC in the output. -/
theorem witness_EscapeOutputHasNoMarkers : State.reset.cfg.Valid ∧
    (escape Config.default [0x3E])[0]? = some State.reset.cfg.escMark := by decide +kernel
/-- The last clause of UnescapeReadsPairsAndLiterals: a byte that is no ESC, and a stray ESC at the end and before a
byte that is no substitute. -/
theorem witness_UnescapeReadsPairsAndLiterals : State.reset.cfg.Valid ∧ (0x41 : Byte) ≠ State.reset.cfg.escMark ∧
    (∀ z, ([] : Bytes).head? = some z → z ∉ State.reset.cfg.substitutes) ∧
    (∀ z, ([0x3D, 0x2E] : Bytes).head? = some z → z ∉ State.reset.cfg.substitutes) :=
  ⟨by decide, by decide, by simp, by intro z h; cases h; decide⟩
theorem witness_ChecksumSeesOneChangedByte : (0x00 : Byte) ≠ 0x80 := by decide
/-- Each clause of UnpackTestsInOrder: no end marker, a single byte, an empty interior, a wrong sum, a wrong length, all
right (V-UNPACK rows 13, 2, 4, 9, 10, 8). -/
theorem witness_UnpackTestsInOrder :
    (¬ ∃ i, (f1.take 12) = State.reset.cfg.startMark :: (i ++ [State.reset.cfg.endMark])) ∧
    (¬ ∃ i, [0x3E] = State.reset.cfg.startMark :: (i ++ [State.reset.cfg.endMark])) ∧
    (unescape State.reset.cfg []).length < 7 ∧
    unescape State.reset.cfg [0x0C, 0x00, 0x00, 0x00, 0x00, 0x04, 0x23, 0x00, 0x4D, 0x01, 0x80] =
      [0x0C, 0x00, 0x00, 0x00, 0x00, 0x04] ++ [0x23, 0x00, 0x4D, 0x01] ++ [0x80] ∧
    checksum ([0x0C, 0x00, 0x00, 0x00, 0x00, 0x04] ++ [0x23, 0x00, 0x4D, 0x01]) ≠ 0x80 ∧
    unescape State.reset.cfg [0x0C, 0x00, 0x00, 0x00, 0x00, 0x05, 0x23, 0x00, 0x4D, 0x01, 0x82] =
      [0x0C, 0x00, 0x00, 0x00, 0x00, 0x05] ++ [0x23, 0x00, 0x4D, 0x01] ++ [0x82] ∧
    checksum ([0x0C, 0x00, 0x00, 0x00, 0x00, 0x05] ++ [0x23, 0x00, 0x4D, 0x01]) = 0x82 ∧
    checksum ([0x0C, 0x00, 0x00, 0x00, 0x00, 0x04] ++ [0x23, 0x00, 0x4D, 0x01]) = 0x81 := by
  refine ⟨?_, ?_, by decide +kernel, by decide +kernel, by decide +kernel, by decide +kernel, by decide +kernel,
    by decide +kernel⟩
  · rintro ⟨i, h⟩
    have := congrArg List.getLast? h
    rw [← List.cons_append, List.getLast?_concat] at this
    revert this
    decide +kernel
  · rintro ⟨i, h⟩
    simp at h
theorem witness_OneCorruptedByteIsMalformed : State.reset.cfg.Valid ∧
    nextOf (exec (.pack 0x0C 0x00 [0x23, 0x00, 0x4D, 0x01]) State.reset) =
      some { State.reset with returned := State.reset.returned ++ [.frame f1] } ∧
    1 ≤ 8 ∧ 8 + 1 < f1.length ∧ f1[8]? ≠ some 0xFF ∧ f1[8]? ≠ some State.reset.cfg.escMark ∧
    f1[8 - 1]? ≠ some State.reset.cfg.escMark ∧
    ¬ ((0xFF : Byte) = State.reset.cfg.escMark ∧ ∃ x ∈ State.reset.cfg.substitutes, f1[8 + 1]? = some x) := by
  decide +kernel
theorem witness_ExtractKeepsWhatIsNoFrameYet : State.reset.cfg.startMark ∉ ([0x01, 0x3C] : Bytes) ∧
    State.reset.cfg.endMark ∉ ([0x0C, 0x3E] : Bytes) := by decide
/-- ExtractReturnsTheFirstFrame (V-EXTRACT row 11) and ExtractResynchronises, ExtractFindsPackedFrames (row 15). -/
theorem witness_ExtractReturnsTheFirstFrame : State.reset.cfg.startMark ∉ ([0x09, 0x09] : Bytes) ∧
    State.reset.cfg.endMark ∉ (f1.drop 1).dropLast ∧ f1 = State.reset.cfg.startMark :: ((f1.drop 1).dropLast ++
      [State.reset.cfg.endMark]) ∧
    nextOf (exec (.unpack f1) State.reset) =
      some { State.reset with returned := State.reset.returned ++ [.unpacked (.message m1)] } := by decide +kernel
theorem witness_ExtractResynchronises :
    let x : Bytes := [0x0C, 0x00, 0x00, 0x00, 0x00, 0x04, 0x23, 0xFF, 0x4D, 0x01, 0x81]
    State.reset.cfg.startMark ∉ ([] : Bytes) ∧ State.reset.cfg.startMark ∉ x ∧ State.reset.cfg.endMark ∉ x ∧
    nextOf (exec (.unpack (State.reset.cfg.startMark :: (x ++ [State.reset.cfg.endMark]))) State.reset) =
      some { State.reset with returned := State.reset.returned ++ [.unpacked (.malformed .checksum)] } := by
  decide +kernel
theorem witness_ExtractFindsPackedFrames : State.reset.cfg.Valid ∧
    nextOf (exec (.pack 0x01 0x01 []) State.reset) =
      some { State.reset with returned := State.reset.returned ++ [.frame a1] } ∧
    State.reset.cfg.startMark ∉ ([0x09, 0x3C] : Bytes) ∧ State.reset.cfg.endMark ∉ ([] : Bytes) := by decide +kernel
/-- ExtractRestShape: a result without a message and one with. -/
theorem witness_ExtractRestShape : (extract Config.default [0x01, 0x3E, 0x0C]).msg = none ∧
    (extract Config.default (f1 ++ [0x07])).msg = some m1 := by decide +kernel
/-- Each clause of SendDataRefusalsInOrder. -/
theorem witness_SendDataRefusalsInOrder : State.reset.ready = false ∧
    ((blk 0 true 0x66 []).ready = true ∧ (blk 0 true 0x66 []).block.pendValid = true) ∧
    ((blk 0 false 0 []).ready = true ∧ (blk 0 false 0 []).block.pendValid = false) := by decide
theorem witness_SendDataWritesOneFrameAndTakesTheSlot : (blk 7 false 0 []).cfg.Valid ∧ (blk 7 false 0 []).ready = true ∧
    (blk 7 false 0 []).block.pendValid = false ∧ ((0xFF : Byte) :: []).length ≤ 2 ^ 32 - 1 := by decide
theorem witness_SentFrameIsTheDataFrameRow : (blk 7 false 0 []).cfg.Valid ∧ (blk 7 false 0 []).ready = true ∧
    (blk 7 false 0 []).block.pendValid = false ∧ ((0xFF : Byte) :: [0x3C]).length ≤ 2 ^ 32 - 1 := by decide
/-- RxBytesHandlesMessagesOneByOne: no message; a data message; an ACK. -/
theorem witness_RxBytesHandlesMessagesOneByOne :
    (extract (blk 0 false 0 [0x3E]).cfg ((blk 0 false 0 [0x3E]).block.rxBuf ++ [0x0C])).msg = none ∧
    (extract State.reset.cfg (State.reset.block.rxBuf ++ f1)).msg = some m1 ∧ m1.dataType ≠ State.reset.cfg.dtAck ∧
    (extract State.reset.cfg (State.reset.block.rxBuf ++ a1)).msg = some ⟨State.reset.cfg.dtAck, 1, []⟩ ∧
    nextOf (exec (.rxBytes []) State.reset) = some State.reset := by decide +kernel
theorem witness_FrameDataWritesOneAckFirst : m1.dataType ≠ State.reset.cfg.dtAck := by decide
/-- FrameDataMatchesAndDelivers: a match by `op + 1`, one at the top of the range, and no match by wrapping. -/
theorem witness_FrameDataMatchesAndDelivers : m1.dataType ≠ State.reset.cfg.dtAck ∧
    ((blk 0 true 0x22 []).block.pendValid = true ∧ m1.payload = 0x23 :: [0x00, 0x4D, 0x01] ∧
      (0x23 : Byte).toNat = (blk 0 true 0x22 []).block.pendOp.toNat + 1) ∧
    (0xFF : Byte).toNat = (blk 0 true 0xFF []).block.pendOp.toNat ∧
    (¬ ((0x00 : Byte).toNat = (blk 0 true 0xFF []).block.pendOp.toNat ∨
      (0x00 : Byte).toNat = (blk 0 true 0xFF []).block.pendOp.toNat + 1)) := by decide
theorem witness_FrameDataStopsOnAnAckMessage : (⟨0x01, 0, []⟩ : Message).dataType = State.reset.cfg.dtAck := by decide
theorem witness_AckSeqIsTheComplement : 2 ≤ (0x02 : Byte).toNat ∧ 2 ≤ (0xFF : Byte).toNat := by decide
theorem witness_TimeoutEndsThePendingRequest : (blk 0 true 0x22 []).block.pendValid = true ∧
    State.reset.block.pendValid = false := by decide
theorem witness_SendIsAcceptedAfterTimeout : (blk 0 true 0x66 []).ready = true ∧
    ((0x66 : Byte) :: [0x02]).length ≤ 2 ^ 32 - 1 := by decide
theorem witness_FramesOnTheWireAreHandled : State.reset.cfg.Valid ∧ ([] : Bytes).length ≤ 2 ^ 32 - 1 ∧
    State.reset.cfg.startMark ∉ (blk 0 false 0 [0x55]).block.rxBuf := by decide
theorem witness_EscapePairsOnTheWireJoinTheBuffer : State.reset.cfg.Valid ∧
    RxShape State.reset.cfg (blk 0 false 0 [0x3E, 0x0C]).block.rxBuf ∧
    ((Instr.wireEscStart = .wireEscStart ∧ (0x2E : Byte) = State.reset.cfg.subStart) ∧
      (Instr.wireEscEnd = .wireEscEnd ∧ (0x2C : Byte) = State.reset.cfg.subEnd) ∧
      (Instr.wireEscEsc = .wireEscEsc ∧ (0x2D : Byte) = State.reset.cfg.subEsc)) := by decide
theorem witness_EveryInstructionKeepsTheSurroundings :
    nextOf (exec .closed (blk 0 false 0 [])) = some { blk 0 false 0 [] with ready := false } := by decide +kernel
/-- SendSeqIsWrittenOnlyByAckAndClear: a FRAME_ACK and a CLEAR that change it, and two ACKs that arrive. -/
theorem witness_SendSeqIsWrittenOnlyByAckAndClear : receivesBytes (.frameAck 7 []) = false ∧
    (nextOf (exec (.frameAck 7 []) State.reset)).map (·.block.sendSeq) = some 7 ∧ receivesBytes .clear = false ∧
    (nextOf (exec .clear (blk 7 false 0 []))).map (·.block.sendSeq) = some 0 := ⟨rfl, rfl, rfl, rfl⟩
theorem witness_SendSeqIsWrittenByArrivingAcks : receivesBytes (.rxBytes (a0 ++ a1)) = true ∧
    messagesIn Config.default (a0 ++ a1) = [⟨0x01, 0x00, []⟩, ⟨0x01, 0x01, []⟩] ∧
    (nextOf (exec (.rxBytes (a0 ++ a1)) (blk 7 false 0 []))).map (·.block.sendSeq) = some 1 := by decide +kernel
/-- SlotIsTakenBySendAndFreedByResolve: taken (and `pend_op` written), and freed. -/
theorem witness_SlotIsTakenBySendAndFreedByResolve :
    ((blk 0 false 0 []).block.pendValid = false ∧
      (does (.sendData [0x22]) (blk 0 false 0 [])).map (·.2) = some ⟨0, true, 0x22, []⟩) ∧
    ((blk 0 true 0x22 []).block.pendValid = true ∧
      (does .timeout (blk 0 true 0x22 [])).map (·.2) = some ⟨0, false, 0x22, []⟩) := by decide +kernel
theorem witness_PendOpIsNotReadWhileFree : State.reset.block.pendValid = false ∧
    nextOf (exec .timeout State.reset) = some State.reset ∧
    refusalOf (exec (.frameData ⟨0x01, 0, []⟩) State.reset) = some .ackTypedOperand := by decide +kernel
theorem witness_ReadyIsReadBySendDataOnly : (∀ p, Instr.timeout ≠ .sendData p) ∧
    (∀ p, Instr.frameData ⟨0x01, 0, []⟩ ≠ .sendData p) ∧ nextOf (exec .timeout State.reset) = some State.reset ∧
    refusalOf (exec (.frameData ⟨0x01, 0, []⟩) State.reset) = some .ackTypedOperand :=
  ⟨by simp, by simp, by decide +kernel, by decide +kernel⟩
theorem witness_OnlySendDataAndFrameDataTransmit : receivesBytes (.frameData m1) = false ∧
    (does (.frameData m1) State.reset).map (fun r => r.1.countP isTxWrite) = some 1 := by decide +kernel
/-- The two invariants kept by a step: a pending request, its account, and a step that is a TIMEOUT. -/
theorem witness_EveryStepKeepsTheInvariants :
    let s := { blk 1 true 0x22 [0x3E, 0x0C] with trace := [.accepted], inbox := [.issue ⟨.op, [12]⟩] }
    Inv s ∧ SlotAccounted s ∧ (nextOf (step s)).map (·.trace) = some [.accepted, .resolve none] := by decide +kernel
theorem witness_ClosedPeriodKeepsBufferAndSeq : State.reset.ready = false ∧
    (∀ x ∈ ([.issue ⟨.op, [6, 0x22]⟩, .issue ⟨.op, [12]⟩, .ready false] : List Input),
      closedPeriodInput State.reset.cfg x = true) := by decide +kernel
theorem witness_PendingRequestEndsByTheTimeout :
    (blk 0 true 0x22 []).block.pendValid = true ∧ (blk 0 true 0x22 []).cfg.Valid ∧
    (∀ x ∈ ([.issue ⟨.op, [14]⟩, .ready false, .issue ⟨.wire, [0x3E]⟩, .inner ⟨.op, [8, 7]⟩] : List Input),
      isTaken (blk 0 true 0x22 []).cfg x = true) := by decide +kernel

end Sys2Proof.Tests
end

