-- ==== Sys2Proof/Proofs/Scope.lean ====
section
/-! PROOF. The maps `sub` and `unsub` are inverse to each other (00_scope.md R5, R6). -/

namespace Sys2Proof.Codec

variable {c : Config} {b x : Byte}

/-- The graph of `sub` has three pairs; the reserved bytes being distinct (R6 (a)), no test of `substituteOf` shadows
a later one. -/
theorem substituteOf_eq_some_iff (h : c.reserved.Nodup) : substituteOf c b = some x ↔
    (b = c.startMark ∧ x = c.subStart) ∨ (b = c.endMark ∧ x = c.subEnd) ∨ (b = c.escMark ∧ x = c.subEsc) := by
  obtain ⟨⟨hse, hsx⟩, hex⟩ : (c.startMark ≠ c.endMark ∧ c.startMark ≠ c.escMark) ∧ c.endMark ≠ c.escMark := by
    simpa using h
  unfold substituteOf
  split_ifs with h1 h2 h3
  · simp [h1, hse, hsx, eq_comm]
  · simp [h2, hse.symm, hex, eq_comm]
  · simp [h3, hsx.symm, hex.symm, eq_comm]
  · simp [h1, h2, h3]

/-- The graph of `unsub` has the same three pairs; here the substitutes are distinct (R6 (b)). -/
theorem originalOf_eq_some_iff (h : c.substitutes.Nodup) : originalOf c x = some b ↔
    (b = c.startMark ∧ x = c.subStart) ∨ (b = c.endMark ∧ x = c.subEnd) ∨ (b = c.escMark ∧ x = c.subEsc) := by
  obtain ⟨⟨hse, hsx⟩, hex⟩ : (c.subStart ≠ c.subEnd ∧ c.subStart ≠ c.subEsc) ∧ c.subEnd ≠ c.subEsc := by
    simpa using h
  unfold originalOf
  split_ifs with h1 h2 h3
  · simp [h1, hse, hsx, eq_comm]
  · simp [h2, hse.symm, hex, eq_comm]
  · simp [h3, hsx.symm, hex.symm, eq_comm]
  · simp [h1, h2, h3]

/-- `sub` and `unsub` have one graph, read in the two directions. -/
theorem originalOf_eq_some_iff_substituteOf (hr : c.reserved.Nodup) (hs : c.substitutes.Nodup) :
    originalOf c x = some b ↔ substituteOf c b = some x := by
  rw [originalOf_eq_some_iff hs, substituteOf_eq_some_iff hr]

theorem mem_reserved_iff_exists : b ∈ c.reserved ↔ ∃ x, substituteOf c b = some x := by
  rw [← Option.ne_none_iff_exists', ne_eq, substituteOf_eq_none_iff, not_not]

theorem mem_substitutes_iff_exists : x ∈ c.substitutes ↔ ∃ b, originalOf c x = some b := by
  rw [← Option.ne_none_iff_exists', ne_eq, originalOf_eq_none_iff, not_not]

/-- Settles O8: the two maps have one graph, and each is defined exactly on its own bytes. -/
theorem substituteMapsAreInverse : Obligations.SubstituteMapsAreInverse := by
  unfold Obligations.SubstituteMapsAreInverse
  rintro c ⟨hres, hsub, -, -⟩
  have graph (b x : Byte) := originalOf_eq_some_iff_substituteOf (b := b) (x := x) hres hsub
  refine ⟨fun r hr => ?_, fun x hx => ?_, fun b => (substituteOf_eq_none_iff c b).2,
    fun b => (originalOf_eq_none_iff c b).2⟩
  · obtain ⟨x, hrx⟩ := mem_reserved_iff_exists.1 hr
    have hxr := (graph r x).2 hrx
    exact ⟨x, mem_substitutes_iff_exists.2 ⟨r, hxr⟩, hrx, hxr⟩
  · obtain ⟨r, hxr⟩ := mem_substitutes_iff_exists.1 hx
    have hrx := (graph r x).1 hxr
    exact ⟨r, mem_reserved_iff_exists.2 ⟨x, hrx⟩, hxr, hrx⟩

end Sys2Proof.Codec
end

