-- ==== Sys2Proof/Proofs/State.lean ====
section
/-! PROOF. The state of the block (10_state.md): what each kind of instruction writes, what RX_BYTES keeps and leaves,
the slot, the two elements that hidden differences cannot reach, and the invariant of `rx_buf`. -/

namespace Sys2Proof.Codec

open Safety

variable (c : Config)

/-! ### What EXTRACT leaves when it finds no message (42_codec_extract.md R139) -/

/-- A buffer in a shape of R139 holds no message and EXTRACT gives it back as it is. -/
theorem extract_of_rxShape {b : Bytes} (h : RxShape c b) : extract c b = ⟨none, b⟩ := by
  rcases h with hstart | ⟨hhead, hend⟩
  · rw [extract_eq, cutAt_eq_none.2 hstart]
  · obtain ⟨r, rfl⟩ := List.head?_eq_some_iff.1 hhead
    have hcut : cutAt c.startMark (c.startMark :: r) = some ([], r) := cutAt_eq_some.2 ⟨rfl, List.not_mem_nil⟩
    have hopen : cutAt c.endMark r = none := cutAt_eq_none.2 hend
    rw [extract_eq, hcut]
    simp only [hopen]

/-- Without a message, what EXTRACT leaves has a shape of R139. -/
theorem extract_rest_rxShape {b : Bytes} (h : (extract c b).msg = none) : RxShape c (extract c b).rest := by
  induction b using extract_induct c with
  | h b ih =>
    rw [extract_eq] at h ⊢
    cases hs : cutAt c.startMark b with
    | none => exact .inl (cutAt_eq_none.1 hs)
    | some p =>
      obtain ⟨g, r⟩ := p
      simp only [hs] at h ⊢
      cases he : cutAt c.endMark r with
      | none => exact .inr ⟨rfl, cutAt_eq_none.1 he⟩
      | some q =>
        simp only [he] at h ⊢
        cases hu : unpack c (c.startMark :: (q.1 ++ [c.endMark])) with
        | message m => simp [hu] at h
        | malformed w =>
          simp only [hu] at h ⊢
          exact ih g r hs h

end Sys2Proof.Codec

namespace Sys2Proof.Machine

open Codec Safety

variable {s t u : State} {i : Instr}

/-! ### Reset -/

/-- Settles O1: the reset state is a literal with an empty queue. -/
theorem resetLeavesBlockEmptyAndIdle : Obligations.ResetLeavesBlockEmptyAndIdle :=
  ⟨rfl, rfl, rfl, rfl, rfl⟩

/-- Settles O2: the default bytes obey R6, the buffer is empty, and nothing was emitted. -/
theorem resetMeetsBothInvariants : Obligations.ResetMeetsBothInvariants :=
  ⟨⟨by decide, .inl List.not_mem_nil⟩, rfl⟩

/-! ### The kinds of instructions -/

/-- Settles O9: the value given back is computed from the operands and the configuration. -/
theorem pureOperationsOnlyReturn : Obligations.PureOperationsOnlyReturn := by
  intro c i hpure
  cases i
  case escape b => exact ⟨.bytes (escape c b), by rintro s rfl; rfl⟩
  case unescape x => exact ⟨.bytes (unescape c x), by rintro s rfl; rfl⟩
  case checksum b => exact ⟨.byte (checksum b), fun _ _ => rfl⟩
  case pack ty q p =>
    cases hp : pack c ty q p with
    | some f => exact ⟨.frame f, by rintro s rfl; simp only [exec, execPack, hp]; rfl⟩
    | none => exact ⟨.refused .tooLong, by rintro s rfl; simp only [exec, execPack, hp]; rfl⟩
  case unpack raw => exact ⟨.unpacked (unpack c raw), by rintro s rfl; rfl⟩
  case extract buf => exact ⟨.extracted (extract c buf), by rintro s rfl; rfl⟩
  case ackseq q => exact ⟨.byte (ackSeq q), fun _ _ => rfl⟩
  case pendset op => exact ⟨.byteSet (pendSet op), fun _ _ => rfl⟩
  all_goals cases hpure

/-- A longer payload makes no wire frame (41_codec_frame.md R111). -/
theorem receiveFrame_refused {ty q : Byte} {p : Bytes} (h : maxPayload < p.length) :
    receiveFrame ty q p s = .refused .noSuchFrame := by
  simp only [receiveFrame, pack, if_neg (Nat.not_le.2 h)]

/-- Where bytes arrive, the configuration alone decides which ones, or that there is no such frame. -/
theorem exec_of_receivesBytes (c : Config) (h : receivesBytes i = true) :
    (∃ chunk, ∀ s : State, s.cfg = c → exec i s = .next (receive s chunk)) ∨
    ∀ s : State, s.cfg = c → exec i s = .refused .noSuchFrame := by
  cases i
  case rxBytes chunk => exact .inl ⟨chunk, fun _ _ => rfl⟩
  case wireFrameData q p =>
    rcases le_or_gt p.length maxPayload with hp | hp
    · exact .inl ⟨frameBytes c c.dtData q p, by rintro s rfl; exact receiveFrame_eq hp⟩
    · exact .inr (by rintro s rfl; exact receiveFrame_refused hp)
  case wireFrameAck q p =>
    rcases le_or_gt p.length maxPayload with hp | hp
    · exact .inl ⟨frameBytes c c.dtAck q p, by rintro s rfl; exact receiveFrame_eq hp⟩
    · exact .inr (by rintro s rfl; exact receiveFrame_refused hp)
  case wireEscStart => exact .inl ⟨[c.escMark, c.subStart], by rintro s rfl; rfl⟩
  case wireEscEnd => exact .inl ⟨[c.escMark, c.subEnd], by rintro s rfl; rfl⟩
  case wireEscEsc => exact .inl ⟨[c.escMark, c.subEsc], by rintro s rfl; rfl⟩
  all_goals cases h

/-- Case analysis by kind: the pure operations, those in which bytes arrive, and the six others one by one. -/
theorem instr_kinds {motive : Instr → Prop} (pureOp : ∀ i, isPure i = true → motive i)
    (arrival : ∀ i, receivesBytes i = true → motive i) (sendData : ∀ p, motive (.sendData p))
    (frameAck : ∀ q p, motive (.frameAck q p)) (frameData : ∀ m, motive (.frameData m)) (timeout : motive .timeout)
    (clear : motive .clear) (closed : motive .closed) (i : Instr) : motive i := by
  cases i
  case sendData p => exact sendData p
  case frameAck q p => exact frameAck q p
  case frameData m => exact frameData m
  case timeout => exact timeout
  case clear => exact clear
  case closed => exact closed
  case rxBytes | wireFrameData | wireFrameAck | wireEscStart | wireEscEnd | wireEscEsc => exact arrival _ rfl
  all_goals exact pureOp _ rfl

/-- `exec_cases` with the pure operations and the arrivals of bytes named by their kind. -/
theorem exec_kind_cases (h : exec i s = .next t) :
    (isPure i = true ∧ ∃ r, t = s.giveBack r) ∨
    (receivesBytes i = true ∧ ∃ chunk, t = receive s chunk) ∨
    (∃ p w, i = .sendData p ∧ t = s.emit (.refused w)) ∨
    (∃ p, i = .sendData p ∧ sendRefusal s p = none ∧ t = sendAccepted s p) ∨
    (∃ q p, i = .frameAck q p ∧ t = s.setSendSeq q) ∨
    (∃ m, i = .frameData m ∧ t = answerAndDeliver s m) ∨
    (i = .timeout ∧ t = giveUpPending s) ∨
    (i = .clear ∧ t = (((giveUpPending s).setRxBuf []).setSendSeq 0).forgetPendOp) ∨
    (i = .closed ∧ t = s.setReady false) := by
  rcases exec_cases h with ⟨hr, hi⟩ | ⟨chunk, rfl, hi⟩ | ⟨p, w, hi, -, ht⟩ | h | h | ⟨m, hi, -, ht⟩ | h
  · refine .inl ⟨?_, hr⟩
    obtain ⟨_, rfl⟩ | ⟨_, rfl⟩ | ⟨_, rfl⟩ | ⟨_, _, _, rfl⟩ | ⟨_, rfl⟩ | ⟨_, rfl⟩ | ⟨_, rfl⟩ | ⟨_, rfl⟩ := hi
    all_goals rfl
  · refine .inr (.inl ⟨?_, chunk, rfl⟩)
    obtain rfl | ⟨_, _, rfl, _⟩ | ⟨_, _, rfl, _⟩ | ⟨rfl, _⟩ | ⟨rfl, _⟩ | ⟨rfl, _⟩ := hi
    all_goals rfl
  · exact .inr (.inr (.inl ⟨p, w, hi, ht⟩))
  · exact .inr (.inr (.inr (.inl h)))
  · exact .inr (.inr (.inr (.inr (.inl h))))
  · exact .inr (.inr (.inr (.inr (.inr (.inl ⟨m, hi, ht⟩)))))
  · exact .inr (.inr (.inr (.inr (.inr (.inr h)))))

/-! ### What the shared operations leave alone -/

@[simp] theorem answerAndDeliver_rxBuf (s : State) (m : Message) :
    (answerAndDeliver s m).block.rxBuf = s.block.rxBuf := by
  rcases answerAndDeliver_cases s m with ⟨-, h⟩ | ⟨-, h⟩ <;> simp [h]

@[simp] theorem answerAndDeliver_sendSeq (s : State) (m : Message) :
    (answerAndDeliver s m).block.sendSeq = s.block.sendSeq := by
  rcases answerAndDeliver_cases s m with ⟨-, h⟩ | ⟨-, h⟩ <;> simp [h]

@[simp] theorem answerAndDeliver_pendOp (s : State) (m : Message) :
    (answerAndDeliver s m).block.pendOp = s.block.pendOp := by
  rcases answerAndDeliver_cases s m with ⟨-, h⟩ | ⟨-, h⟩ <;> simp [h]

@[simp] theorem giveUpPending_rxBuf (s : State) : (giveUpPending s).block.rxBuf = s.block.rxBuf := by
  rcases giveUpPending_cases s with ⟨-, h⟩ | ⟨-, h⟩ <;> simp [h]

@[simp] theorem giveUpPending_sendSeq (s : State) : (giveUpPending s).block.sendSeq = s.block.sendSeq := by
  rcases giveUpPending_cases s with ⟨-, h⟩ | ⟨-, h⟩ <;> simp [h]

@[simp] theorem giveUpPending_pendOp (s : State) : (giveUpPending s).block.pendOp = s.block.pendOp := by
  rcases giveUpPending_cases s with ⟨-, h⟩ | ⟨-, h⟩ <;> simp [h]

@[simp] theorem handleMessage_pendOp (s : State) (m : Message) : (handleMessage s m).block.pendOp = s.block.pendOp := by
  by_cases h : m.dataType = s.cfg.dtAck
  · simp [handleMessage_ack h]
  · simp [handleMessage_data h]

/-- Handling a message adopts the seq of an ACK and of no other message (43_ack_sequencer.md R163, R166). -/
theorem handleMessage_sendSeq (s : State) (m : Message) :
    (handleMessage s m).block.sendSeq = if m.dataType = s.cfg.dtAck then m.seq else s.block.sendSeq := by
  by_cases h : m.dataType = s.cfg.dtAck
  · simp [handleMessage_ack h, h]
  · simp [handleMessage_data h, h]

/-- From `s` to `t` only the block is written and only emissions are added. -/
structure SameSurroundings (s t : State) : Prop where
  cfg      : t.cfg = s.cfg
  inbox    : t.inbox = s.inbox
  ready    : t.ready = s.ready
  returned : t.returned = s.returned
  freeIdx  : t.freeIdx = s.freeIdx
  trace    : s.trace <+: t.trace

namespace SameSurroundings

theorem refl (s : State) : SameSurroundings s s := ⟨rfl, rfl, rfl, rfl, rfl, List.prefix_rfl⟩

theorem trans (h : SameSurroundings s t) (h' : SameSurroundings t u) : SameSurroundings s u :=
  ⟨h'.cfg.trans h.cfg, h'.inbox.trans h.inbox, h'.ready.trans h.ready, h'.returned.trans h.returned,
    h'.freeIdx.trans h.freeIdx, h.trace.trans h'.trace⟩

/-- A write of the block, whatever it writes. -/
theorem setBlock (s : State) (b : Block) : SameSurroundings s { s with block := b } :=
  ⟨rfl, rfl, rfl, rfl, rfl, List.prefix_rfl⟩

theorem emit (s : State) (e : Emission) : SameSurroundings s (s.emit e) :=
  ⟨rfl, rfl, rfl, rfl, rfl, List.prefix_append _ _⟩

theorem giveUpPending (s : State) : SameSurroundings s (giveUpPending s) := by
  rcases giveUpPending_cases s with ⟨-, h⟩ | ⟨-, h⟩ <;> rw [h]
  · exact (emit _ _).trans (setBlock _ _)
  · exact refl s

theorem sendAccepted (s : State) (p : Bytes) : SameSurroundings s (sendAccepted s p) :=
  ((emit _ _).trans (setBlock _ _)).trans (emit _ _)

theorem answerAndDeliver (s : State) (m : Message) : SameSurroundings s (answerAndDeliver s m) := by
  rcases answerAndDeliver_cases s m with ⟨-, h⟩ | ⟨-, h⟩ <;> rw [h]
  · exact (((emit _ _).trans (setBlock _ _)).trans (emit _ _)).trans (emit _ _)
  · exact (emit _ _).trans (emit _ _)

theorem handleMessage (s : State) (m : Message) : SameSurroundings s (handleMessage s m) := by
  by_cases h : m.dataType = s.cfg.dtAck
  · rw [handleMessage_ack h]; exact setBlock _ _
  · rw [handleMessage_data h]; exact answerAndDeliver s m

theorem receive (s : State) (chunk : Bytes) : SameSurroundings s (receive s chunk) :=
  receive_preserves (P := SameSurroundings s) (fun _ _ h => h.trans (setBlock _ _))
    (fun _ m h => h.trans (handleMessage _ m)) s chunk (refl s)

end SameSurroundings

/-- Settles O48: the pure operations add a returned value, CLEAR advances the counter, CLOSED lowers `ready`, and the
rest keep the surroundings. -/
theorem everyInstructionKeepsTheSurroundings : Obligations.EveryInstructionKeepsTheSurroundings := by
  intro i s t h
  have keep (hs : SameSurroundings s t) (hclosed : i ≠ .closed) (hclear : i ≠ .clear) :
      t.cfg = s.cfg ∧ t.inbox = s.inbox ∧ s.trace <+: t.trace ∧ s.returned <+: t.returned ∧
      t.ready = (if i = .closed then false else s.ready) ∧
      t.freeIdx = (if i = .clear then s.freeIdx + 1 else s.freeIdx) := by
    rw [if_neg hclosed, if_neg hclear]
    exact ⟨hs.cfg, hs.inbox, hs.trace, hs.returned ▸ List.prefix_rfl, hs.ready, hs.freeIdx⟩
  rcases exec_kind_cases h with ⟨hi, r, rfl⟩ | ⟨hi, chunk, rfl⟩ | ⟨p, w, rfl, rfl⟩ | ⟨p, rfl, -, rfl⟩ | ⟨q, p, rfl, rfl⟩ |
    ⟨m, rfl, rfl⟩ | ⟨rfl, rfl⟩ | ⟨rfl, rfl⟩ | ⟨rfl, rfl⟩
  · have hclosed : i ≠ .closed := by rintro rfl; cases hi
    have hclear : i ≠ .clear := by rintro rfl; cases hi
    simp [hclosed, hclear]
  · exact keep (.receive s chunk) (by rintro rfl; cases hi) (by rintro rfl; cases hi)
  · exact keep (.emit s _) (by simp) (by simp)
  · exact keep (.sendAccepted s p) (by simp) (by simp)
  · exact keep (.setBlock s _) (by simp) (by simp)
  · exact keep (.answerAndDeliver s m) (by simp) (by simp)
  · exact keep (.giveUpPending s) (by simp) (by simp)
  · have hs := SameSurroundings.giveUpPending s
    simp [hs.cfg, hs.inbox, hs.trace, hs.returned, hs.ready, hs.freeIdx]
  · simp

/-! ### The loop of RX_BYTES -/

/-- RX_BYTES of bytes that complete no frame stores the rest. -/
theorem receive_of_none {chunk : Bytes} (h : (extract s.cfg (s.block.rxBuf ++ chunk)).msg = none) :
    receive s chunk = s.setRxBuf (extract s.cfg (s.block.rxBuf ++ chunk)).rest := by
  rw [receive_eq, h]

/-- RX_BYTES of bytes that complete a frame handles its message and goes on with what is left. -/
theorem receive_of_some {chunk : Bytes} {m : Message} (h : (extract s.cfg (s.block.rxBuf ++ chunk)).msg = some m) :
    receive s chunk =
      receive (handleMessage (s.setRxBuf (extract s.cfg (s.block.rxBuf ++ chunk)).rest) m) [] := by
  rw [receive_eq, h]

/-- Induction along the messages that RX_BYTES extracts; each leaves a shorter buffer (43_ack_sequencer.md R162). -/
theorem receive_induct {P : State → Bytes → Prop}
    (none : ∀ s chunk, (extract s.cfg (s.block.rxBuf ++ chunk)).msg = none → P s chunk)
    (some : ∀ s chunk m, (extract s.cfg (s.block.rxBuf ++ chunk)).msg = some m →
      P (handleMessage (s.setRxBuf (extract s.cfg (s.block.rxBuf ++ chunk)).rest) m) [] → P s chunk)
    (s : State) (chunk : Bytes) : P s chunk := by
  induction hn : (s.block.rxBuf ++ chunk).length using Nat.strong_induction_on generalizing s chunk with
  | h n ih =>
    cases hm : (extract s.cfg (s.block.rxBuf ++ chunk)).msg with
    | none => exact none s chunk hm
    | some m =>
      have hlt := extract_rest_length s.cfg hm
      exact some s chunk m hm (ih _ (by simpa [← hn] using hlt) _ _ rfl)

/-- RX_BYTES ends with a buffer in a shape of 42_codec_extract.md R139. -/
theorem receive_rxShape (s : State) (chunk : Bytes) : RxShape s.cfg (receive s chunk).block.rxBuf := by
  induction s, chunk using receive_induct with
  | none s chunk h => rw [receive_of_none h]; exact extract_rest_rxShape s.cfg h
  | some s chunk m h ih => rw [receive_of_some h]; simpa using ih

/-- From a buffer in a shape of R139, RX_BYTES of nothing changes nothing. -/
theorem receive_nil_of_rxShape (h : RxShape s.cfg s.block.rxBuf) : receive s [] = s := by
  have he : extract s.cfg (s.block.rxBuf ++ []) = ⟨none, s.block.rxBuf⟩ := by
    rw [List.append_nil]; exact extract_of_rxShape s.cfg h
  rw [receive_of_none (by rw [he]), he]
  exact State.setRxBuf_self s

@[simp] theorem receive_pendOp (s : State) (chunk : Bytes) : (receive s chunk).block.pendOp = s.block.pendOp :=
  receive_preserves (P := fun t => t.block.pendOp = s.block.pendOp) (fun _ _ h => h) (fun t m h => by simpa using h)
    s chunk rfl

/-- The seq of the last ACK among the messages, and `q` if there is none (43_ack_sequencer.md R163). -/
def lastAckSeq (c : Config) (q : Byte) (msgs : List Message) : Byte :=
  msgs.foldl (fun q m => if m.dataType = c.dtAck then m.seq else q) q

theorem lastAckSeq_cons (c : Config) (q : Byte) (m : Message) (msgs : List Message) :
    lastAckSeq c q (m :: msgs) = lastAckSeq c (if m.dataType = c.dtAck then m.seq else q) msgs := rfl

/-- RX_BYTES leaves `send_seq` at the seq of the last ACK it extracts. -/
theorem receive_sendSeq (s : State) (chunk : Bytes) : (receive s chunk).block.sendSeq =
    lastAckSeq s.cfg s.block.sendSeq (messagesIn s.cfg (s.block.rxBuf ++ chunk)) := by
  induction s, chunk using receive_induct with
  | none s chunk h => rw [receive_of_none h, messagesIn_of_none _ h]; rfl
  | some s chunk m h ih =>
    rw [receive_of_some h, ih, messagesIn_of_some _ h]
    simp [handleMessage_setRxBuf, handleMessage_sendSeq, lastAckSeq_cons]

/-- States with the same surroundings and the same `pend_op` differ in what RX_BYTES may write. -/
theorem eq_of_sameSurroundings {new : List Emission} (h : SameSurroundings s t) (hop : t.block.pendOp = s.block.pendOp)
    (hnew : s.trace ++ new = t.trace) :
    t = { s with
      block := { s.block with sendSeq := t.block.sendSeq, pendValid := t.block.pendValid, rxBuf := t.block.rxBuf }
      trace := s.trace ++ new } := by
  obtain ⟨hcfg, hinbox, hready, hreturned, hfree, -⟩ := h
  rw [hnew, ← hcfg, ← hinbox, ← hready, ← hreturned, ← hfree]
  dsimp only
  rw [← hop]

/-- Settles O32: the final shape, its stability, and the frame of RX_BYTES. -/
theorem rxBytesFrameAndFinalShape : Obligations.RxBytesFrameAndFinalShape := by
  intro s chunk
  have hsame := SameSurroundings.receive s chunk
  have hshape := receive_rxShape s chunk
  obtain ⟨new, hnew⟩ := hsame.trace
  have hstable : receive (receive s chunk) [] = receive s chunk :=
    receive_nil_of_rxShape (by rw [receive_cfg]; exact hshape)
  exact ⟨receive s chunk, new, rfl, hshape, congrArg Host.Outcome.next hstable,
    eq_of_sameSurroundings hsame (receive_pendOp s chunk) hnew⟩

/-! ### `send_seq` -/

/-- Settles O49: outside arriving bytes only FRAME_ACK and CLEAR write `send_seq`; RX_BYTES folds over its ACKs. -/
theorem sendSeqIsWrittenOnlyByAckAndClear : Obligations.SendSeqIsWrittenOnlyByAckAndClear := by
  intro i s t h
  constructor
  · intro hquiet hne
    rcases exec_kind_cases h with ⟨-, r, rfl⟩ | ⟨hi, -⟩ | ⟨p, w, -, rfl⟩ | ⟨p, -, -, rfl⟩ | ⟨q, p, rfl, rfl⟩ |
      ⟨m, -, rfl⟩ | ⟨-, rfl⟩ | ⟨rfl, rfl⟩ | ⟨-, rfl⟩
    · exact absurd rfl hne
    · simp [hquiet] at hi
    · exact absurd rfl hne
    · exact absurd rfl hne
    · exact .inl ⟨q, p, rfl, rfl⟩
    · exact absurd (answerAndDeliver_sendSeq s m) hne
    · exact absurd (giveUpPending_sendSeq s) hne
    · exact .inr ⟨rfl, rfl⟩
    · exact absurd rfl hne
  · intro hbytes
    obtain ⟨chunk, hchunk⟩ := Option.isSome_iff_exists.1 ((arrivingBytes_isSome s.cfg i).trans hbytes)
    refine ⟨chunk, hchunk, ?_⟩
    rw [exec_of_arrivingBytes h hchunk]
    exact receive_sendSeq s chunk

/-! ### The slot -/

/-- The Resolves so far, and the one that a pending request still has to come. -/
def resolvesDue (s : State) : Nat := s.trace.countP isResolve + s.block.pendValid.toNat

theorem resolvesDue_giveUpPending (s : State) : resolvesDue (giveUpPending s) = resolvesDue s := by
  rcases giveUpPending_cases s with ⟨hv, h⟩ | ⟨-, h⟩ <;> rw [h]
  simp [resolvesDue, hv, isResolve]

theorem resolvesDue_answerAndDeliver (s : State) (m : Message) : resolvesDue (answerAndDeliver s m) = resolvesDue s := by
  rcases answerAndDeliver_cases s m with ⟨hm, h⟩ | ⟨-, h⟩ <;> rw [h]
  · simp [resolvesDue, matchesPending_pendValid hm, isResolve, List.countP_cons]
  · simp [resolvesDue, isResolve]

theorem resolvesDue_handleMessage (s : State) (m : Message) : resolvesDue (handleMessage s m) = resolvesDue s := by
  by_cases h : m.dataType = s.cfg.dtAck
  · rw [handleMessage_ack h]; rfl
  · rw [handleMessage_data h]; exact resolvesDue_answerAndDeliver s m

theorem resolvesDue_receive (s : State) (chunk : Bytes) : resolvesDue (receive s chunk) = resolvesDue s :=
  receive_preserves (P := fun t => resolvesDue t = resolvesDue s) (fun _ _ h => h)
    (fun t m h => (resolvesDue_handleMessage t m).trans h) s chunk rfl

/-- An instruction is an accepted SEND_DATA, or it keeps the Resolves due and, unless it is CLEAR, `pend_op`. -/
theorem exec_slot_cases (h : exec i s = .next t) :
    (∃ op p, i = .sendData (op :: p) ∧ s.block.pendValid = false ∧ t = sendAccepted s (op :: p)) ∨
    (resolvesDue t = resolvesDue s ∧ (i = .clear ∨ t.block.pendOp = s.block.pendOp)) := by
  rcases exec_kind_cases h with ⟨-, r, rfl⟩ | ⟨-, chunk, rfl⟩ | ⟨p, w, -, rfl⟩ | ⟨p, rfl, hp, rfl⟩ | ⟨q, p, -, rfl⟩ |
    ⟨m, -, rfl⟩ | ⟨-, rfl⟩ | ⟨rfl, rfl⟩ | ⟨-, rfl⟩
  · exact .inr ⟨rfl, .inr rfl⟩
  · exact .inr ⟨resolvesDue_receive s chunk, .inr (receive_pendOp s chunk)⟩
  · exact .inr ⟨by simp [resolvesDue, isResolve], .inr rfl⟩
  · obtain ⟨-, hfree, hne, -⟩ := sendRefusal_eq_none.1 hp
    obtain ⟨op, rest, rfl⟩ := List.exists_cons_of_ne_nil hne
    exact .inl ⟨op, rest, rfl, hfree, rfl⟩
  · exact .inr ⟨rfl, .inr rfl⟩
  · exact .inr ⟨resolvesDue_answerAndDeliver s m, .inr (answerAndDeliver_pendOp s m)⟩
  · exact .inr ⟨resolvesDue_giveUpPending s, .inr (giveUpPending_pendOp s)⟩
  · exact .inr ⟨resolvesDue_giveUpPending s, .inl rfl⟩
  · exact .inr ⟨rfl, .inr rfl⟩

/-- Settles O50: while the Resolves due stay the same, the slot is freed with one more Resolve, and taking it would
take a Resolve back. -/
theorem slotIsTakenBySendAndFreedByResolve : Obligations.SlotIsTakenBySendAndFreedByResolve := by
  intro i s t h
  rcases exec_slot_cases h with ⟨op, p, rfl, hfree, rfl⟩ | ⟨hdue, hop⟩
  · refine ⟨fun _ _ => ⟨op, p, rfl, rfl, ?_⟩, fun hpending => ?_, fun _ => .inr ⟨hfree, rfl⟩⟩
    · simp [sendAccepted, isAccepted]
    · simp [hfree] at hpending
  · obtain ⟨-, -, htrace, -⟩ := everyInstructionKeepsTheSurroundings i s t h
    have hmono : s.trace.countP isResolve ≤ t.trace.countP isResolve := htrace.sublist.countP_le
    unfold resolvesDue at hdue
    refine ⟨fun hs ht => ?_, fun hs ht => ?_, fun hne => .inl (hop.resolve_right hne)⟩
    · simp only [hs, ht, Bool.toNat_true, Bool.toNat_false] at hdue; omega
    · simpa only [hs, ht, Bool.toNat_true, Bool.toNat_false, Nat.add_zero] using hdue

/-! ### Differences that instructions do not see -/

/-- Two outcomes of the same kind, with related next states or one reason. -/
inductive OutcomeRel (R : State → State → Prop) :
    Host.Outcome State Fault Refusal → Host.Outcome State Fault Refusal → Prop where
  | next {s t : State} (h : R s t) : OutcomeRel R (.next s) (.next t)
  | refused (r : Refusal) : OutcomeRel R (.refused r) (.refused r)

/-- A relation that looks the same to the codec and is kept by what a pure operation and RX_BYTES do. -/
structure IsSimulation (R : State → State → Prop) : Prop where
  cfg           : ∀ {s t}, R s t → t.cfg = s.cfg
  rxBuf         : ∀ {s t}, R s t → t.block.rxBuf = s.block.rxBuf
  giveBack      : ∀ {s t}, R s t → ∀ r, R (s.giveBack r) (t.giveBack r)
  setRxBuf      : ∀ {s t}, R s t → ∀ b, R (s.setRxBuf b) (t.setRxBuf b)
  handleMessage : ∀ {s t}, R s t → ∀ m, R (handleMessage s m) (handleMessage t m)

section
variable {R R' : State → State → Prop} {o o' : Host.Outcome State Fault Refusal}

theorem OutcomeRel.mono (h : OutcomeRel R o o') (himp : ∀ s t, R s t → R' s t) : OutcomeRel R' o o' := by
  cases h with
  | next h => exact .next (himp _ _ h)
  | refused r => exact .refused r

theorem OutcomeRel.exists_next (h : OutcomeRel R o o') (ht : o = .next t) : ∃ t', o' = .next t' ∧ R t t' := by
  cases h with
  | next h => cases ht; exact ⟨_, rfl, h⟩
  | refused r => cases ht

theorem OutcomeRel.refused_eq {r : Refusal} (h : OutcomeRel R o o') (hr : o = .refused r) : o' = .refused r := by
  cases h with
  | next h => cases hr
  | refused r' => exact hr

variable (hR : IsSimulation R)
include hR

/-- RX_BYTES extracts the same messages from related states. -/
theorem IsSimulation.receive (h : R s t) (chunk : Bytes) : R (receive s chunk) (receive t chunk) := by
  induction s, chunk using receive_induct generalizing t with
  | none s chunk hm =>
    rw [receive_of_none hm, receive_of_none (by rwa [hR.cfg h, hR.rxBuf h]), hR.cfg h, hR.rxBuf h]
    exact hR.setRxBuf h _
  | some s chunk m hm ih =>
    have hm' : (extract t.cfg (t.block.rxBuf ++ chunk)).msg = some m := by rwa [hR.cfg h, hR.rxBuf h]
    rw [receive_of_some hm, receive_of_some hm', hR.cfg h, hR.rxBuf h]
    exact ih (hR.handleMessage (hR.setRxBuf h _) m)

theorem IsSimulation.exec_of_isPure (h : R s t) (hi : isPure i = true) : OutcomeRel R (exec i s) (exec i t) := by
  obtain ⟨r, hr⟩ := pureOperationsOnlyReturn s.cfg i hi
  rw [hr s rfl, hr t (hR.cfg h)]
  exact .next (hR.giveBack h r)

theorem IsSimulation.exec_of_receivesBytes (h : R s t) (hi : receivesBytes i = true) :
    OutcomeRel R (exec i s) (exec i t) := by
  rcases Machine.exec_of_receivesBytes s.cfg hi with ⟨chunk, hc⟩ | hc
  · rw [hc s rfl, hc t (hR.cfg h)]; exact .next (hR.receive h chunk)
  · rw [hc s rfl, hc t (hR.cfg h)]; exact .refused _

/-- FRAME_ACK is the handling of an ACK (43_ack_sequencer.md R161). -/
theorem IsSimulation.exec_frameAck (h : R s t) (q : Byte) (p : Bytes) :
    OutcomeRel R (exec (.frameAck q p) s) (exec (.frameAck q p) t) := by
  have hs := hR.handleMessage h ⟨s.cfg.dtAck, q, p⟩
  rw [handleMessage_ack rfl, handleMessage_ack (hR.cfg h ▸ rfl)] at hs
  exact .next hs

/-- FRAME_DATA is the handling of a message that is no ACK (R161). -/
theorem IsSimulation.exec_frameData (h : R s t) (m : Message) :
    OutcomeRel R (exec (.frameData m) s) (exec (.frameData m) t) := by
  by_cases hm : m.dataType = s.cfg.dtAck
  · simp only [exec, execFrameData, hR.cfg h, hm, if_true]; exact .refused _
  · have hm' : m.dataType ≠ t.cfg.dtAck := by rwa [hR.cfg h]
    have hs := hR.handleMessage h m
    rw [handleMessage_data hm, handleMessage_data hm'] at hs
    rw [execFrameData_eq hm, execFrameData_eq hm']
    exact .next hs

end

/-! ### `ready` -/

/-- The same state with the input `ready` at this level. -/
def ReadyAt (level : Bool) (s t : State) : Prop := t = s.setReady level

theorem handleMessage_setReady (s : State) (level : Bool) (m : Message) :
    handleMessage (s.setReady level) m = (handleMessage s m).setReady level := by
  by_cases h : m.dataType = s.cfg.dtAck
  · rw [handleMessage_ack h, handleMessage_ack (by simpa using h)]; rfl
  · rw [handleMessage_data h, handleMessage_data (by simpa using h)]
    cases hm : matchesPending s.block.pendValid s.block.pendOp m <;> simp [answerAndDeliver, hm] <;> rfl

theorem readyAt_isSimulation (level : Bool) : IsSimulation (ReadyAt level) where
  cfg := by rintro s _ rfl; rfl
  rxBuf := by rintro s _ rfl; rfl
  giveBack := by rintro s _ rfl r; rfl
  setRxBuf := by rintro s _ rfl b; rfl
  handleMessage := by rintro s _ rfl m; exact handleMessage_setReady s level m

theorem giveUpPending_setReady (s : State) (level : Bool) :
    giveUpPending (s.setReady level) = (giveUpPending s).setReady level := by
  cases h : s.block.pendValid
  · simp [giveUpPending, h]
  · simp only [giveUpPending, State.setReady_pendValid, h, if_true]; rfl

/-- Every instruction but SEND_DATA has one outcome at both levels; CLOSED sets its own level. -/
theorem exec_setReady (s : State) (level : Bool) (hi : ∀ p, i ≠ .sendData p) :
    OutcomeRel (ReadyAt (if i = .closed then false else level)) (exec i s) (exec i (s.setReady level)) := by
  have sim := readyAt_isSimulation level
  have hs : ReadyAt level s (s.setReady level) := rfl
  induction i using instr_kinds with
  | pureOp i h => rw [if_neg (by rintro rfl; cases h)]; exact sim.exec_of_isPure hs h
  | arrival i h => rw [if_neg (by rintro rfl; cases h)]; exact sim.exec_of_receivesBytes hs h
  | sendData p => exact absurd rfl (hi p)
  | frameAck q p => exact sim.exec_frameAck hs q p
  | frameData m => exact sim.exec_frameData hs m
  | timeout => exact .next (giveUpPending_setReady s level)
  | clear =>
    refine .next ?_
    rw [giveUpPending_setReady]
    rfl
  | closed => exact .next rfl

/-- Settles O52: the outcomes at two levels are related by `ReadyAt`. -/
theorem readyIsReadBySendDataOnly : Obligations.ReadyIsReadBySendDataOnly := by
  intro i s level hi
  have hrel := exec_setReady s level hi
  refine ⟨fun t ht => ?_, fun r hr => hrel.refused_eq hr⟩
  obtain ⟨_, ht', rfl⟩ := hrel.exists_next ht
  exact ht'

/-! ### `pend_op` while no request is pending -/

/-- No request is pending, and the other state has `v` for `pend_op`. -/
def FreeWithPendOp (v : Byte) (s t : State) : Prop := s.block.pendValid = false ∧ t = s.setPendOp v

/-- Equal but for `pend_op`, and equal in `pend_op` too if a request is pending. -/
def EqUpToPendOp (s t : State) : Prop := ∃ w, t = s.setPendOp w ∧ (s.block.pendValid = true → w = s.block.pendOp)

theorem FreeWithPendOp.eqUpToPendOp {v : Byte} (h : FreeWithPendOp v s t) : EqUpToPendOp s t :=
  ⟨v, h.2, fun hp => by simp [h.1] at hp⟩

theorem EqUpToPendOp.refl (s : State) : EqUpToPendOp s s := ⟨s.block.pendOp, rfl, fun _ => rfl⟩

/-- With nothing pending, whatever `pend_op` is, no message matches. -/
theorem answerAndDeliver_of_free (h : s.block.pendValid = false) (m : Message) :
    answerAndDeliver s m = (s.emit (.txWrite (ackFor s.cfg m))).emit (.deliver m false) := by
  rcases answerAndDeliver_cases s m with ⟨hm, -⟩ | ⟨-, h⟩
  · simp [matchesPending_pendValid hm] at h
  · exact h

theorem giveUpPending_of_free (h : s.block.pendValid = false) : giveUpPending s = s := by simp [giveUpPending, h]

theorem freeWithPendOp_isSimulation (v : Byte) : IsSimulation (FreeWithPendOp v) where
  cfg := by rintro s _ ⟨-, rfl⟩; rfl
  rxBuf := by rintro s _ ⟨-, rfl⟩; rfl
  giveBack := by rintro s _ ⟨h, rfl⟩ r; exact ⟨h, rfl⟩
  setRxBuf := by rintro s _ ⟨h, rfl⟩ b; exact ⟨h, rfl⟩
  handleMessage := by
    rintro s _ ⟨h, rfl⟩ m
    by_cases hm : m.dataType = s.cfg.dtAck
    · rw [handleMessage_ack hm, handleMessage_ack (by simpa using hm)]; exact ⟨h, rfl⟩
    · rw [handleMessage_data hm, handleMessage_data (by simpa using hm), answerAndDeliver_of_free h,
        answerAndDeliver_of_free (by simpa using h)]
      exact ⟨h, rfl⟩

/-- SEND_DATA does not read `pend_op`: refused, it leaves it; accepted, it overwrites it. -/
theorem execSendData_setPendOp (h : s.block.pendValid = false) (v : Byte) (p : Bytes) :
    OutcomeRel EqUpToPendOp (exec (.sendData p) s) (exec (.sendData p) (s.setPendOp v)) := by
  have hsame : sendRefusal (s.setPendOp v) p = sendRefusal s p := rfl
  cases hr : sendRefusal s p with
  | some w =>
    simp only [exec, execSendData, hsame, hr]
    exact .next (FreeWithPendOp.eqUpToPendOp (v := v) ⟨h, rfl⟩)
  | none =>
    simp only [exec, execSendData, hsame, hr]
    exact .next (EqUpToPendOp.refl _)

theorem exec_setPendOp_of_free (h : s.block.pendValid = false) (i : Instr) (v : Byte) :
    OutcomeRel EqUpToPendOp (exec i s) (exec i (s.setPendOp v)) := by
  have sim := freeWithPendOp_isSimulation v
  have hs : FreeWithPendOp v s (s.setPendOp v) := ⟨h, rfl⟩
  have weaken {o o'} (hrel : OutcomeRel (FreeWithPendOp v) o o') : OutcomeRel EqUpToPendOp o o' :=
    hrel.mono fun _ _ => FreeWithPendOp.eqUpToPendOp
  have hfree' : (s.setPendOp v).block.pendValid = false := h
  induction i using instr_kinds with
  | pureOp i hi => exact weaken (sim.exec_of_isPure hs hi)
  | arrival i hi => exact weaken (sim.exec_of_receivesBytes hs hi)
  | sendData p => exact execSendData_setPendOp h v p
  | frameAck q p => exact weaken (sim.exec_frameAck hs q p)
  | frameData m => exact weaken (sim.exec_frameData hs m)
  | timeout =>
    simp only [exec, execTimeout, giveUpPending_of_free h, giveUpPending_of_free hfree']
    exact weaken (.next hs)
  | clear =>
    simp only [exec, execClear, giveUpPending_of_free h, giveUpPending_of_free hfree']
    exact .next (EqUpToPendOp.refl _)
  | closed => exact weaken (.next ⟨h, rfl⟩)

/-- Settles O51: with no request pending, the outcomes for two values of `pend_op` are related by `EqUpToPendOp`. -/
theorem pendOpIsNotReadWhileFree : Obligations.PendOpIsNotReadWhileFree := by
  intro i s v h
  have hrel := exec_setPendOp_of_free h i v
  refine ⟨fun t ht => ?_, fun r hr => hrel.refused_eq hr⟩
  obtain ⟨_, ht', w, rfl, hw⟩ := hrel.exists_next ht
  exact ⟨w, ht', hw⟩

/-! ### The invariant -/

/-- Only RX_BYTES and CLEAR write `rx_buf`, and both leave a shape of R139. -/
theorem exec_keeps_inv (h : exec i s = .next t) (hinv : Inv s) : Inv t := by
  obtain ⟨hvalid, hshape⟩ := hinv
  obtain ⟨hcfg, -⟩ := everyInstructionKeepsTheSurroundings i s t h
  suffices RxShape s.cfg t.block.rxBuf from ⟨hcfg ▸ hvalid, hcfg ▸ this⟩
  rcases exec_kind_cases h with ⟨-, r, rfl⟩ | ⟨-, chunk, rfl⟩ | ⟨p, w, -, rfl⟩ | ⟨p, -, -, rfl⟩ | ⟨q, p, -, rfl⟩ |
    ⟨m, -, rfl⟩ | ⟨-, rfl⟩ | ⟨-, rfl⟩ | ⟨-, rfl⟩
  · exact hshape
  · exact receive_rxShape s chunk
  · exact hshape
  · exact hshape
  · exact hshape
  · rw [answerAndDeliver_rxBuf]; exact hshape
  · rw [giveUpPending_rxBuf]; exact hshape
  · exact .inl List.not_mem_nil
  · exact hshape

/-- Settles O54: taking an input off the queue does not touch the block, and its instruction keeps the invariant. -/
theorem everyStepKeepsTheBlockInvariant : Obligations.EveryStepKeepsTheBlockInvariant := by
  intro s t hinv hstep
  rcases step_cases hstep with ⟨-, rfl⟩ | ⟨level, rest, -, rfl⟩ | ⟨x, r, rest, i, -, -, hexec⟩
  · exact hinv
  · exact hinv
  · exact exec_keeps_inv hexec hinv

end Sys2Proof.Machine
end

