-- ==== Sys2Proof/Proofs/Memory.lean ====
section
/-! PROOF. The two byte streams (20_memory.md): a step takes the next queued input, the fragmentation of the RX stream
is not seen, and what writes the TX stream. -/

namespace Sys2Proof.Codec

variable (c : Config)

/-! ### EXTRACT when more bytes follow -/

/-- Bytes that follow do not move the first `v`. -/
theorem cutAt_append {v : Byte} {b g r : Bytes} (h : cutAt v b = some (g, r)) (x : Bytes) :
    cutAt v (b ++ x) = some (g, r ++ x) := by
  obtain ⟨rfl, hg⟩ := cutAt_eq_some.1 h
  exact cutAt_eq_some.2 ⟨by simp, hg⟩

/-- EXTRACT reads nothing before the first START. -/
theorem extract_of_cutAt {b g r : Bytes} (h : cutAt c.startMark b = some (g, r)) :
    extract c b = extract c (c.startMark :: r) := by
  have hhead : cutAt c.startMark (c.startMark :: r) = some ([], r) := cutAt_eq_some.2 ⟨rfl, List.not_mem_nil⟩
  rw [extract_eq, extract_eq, h, hhead]

/-- A message that is found stays the first one, and bytes that follow wait behind what it leaves. -/
theorem extract_append_of_some {b : Bytes} {m : Message} (h : (extract c b).msg = some m) (x : Bytes) :
    extract c (b ++ x) = ⟨some m, (extract c b).rest ++ x⟩ := by
  induction b using extract_induct c with
  | h b ih =>
    rw [extract_eq] at h ⊢
    rw [extract_eq c b]
    cases hs : cutAt c.startMark b with
    | none => simp [hs] at h
    | some p =>
      obtain ⟨g, r⟩ := p
      simp only [hs, cutAt_append hs x] at h ⊢
      cases he : cutAt c.endMark r with
      | none => simp [he] at h
      | some q =>
        obtain ⟨i, t⟩ := q
        simp only [he, cutAt_append he x] at h ⊢
        cases hu : unpack c (c.startMark :: (i ++ [c.endMark])) with
        | message m' => simpa [hu] using h
        | malformed w =>
          simp only [hu] at h ⊢
          exact ih g r hs h

/-- What EXTRACT drops when it finds no message would not have changed what it finds later. -/
theorem extract_append_of_none {b : Bytes} (h : (extract c b).msg = none) (x : Bytes) :
    extract c ((extract c b).rest ++ x) = extract c (b ++ x) := by
  induction b using extract_induct c with
  | h b ih =>
    rw [extract_eq] at h
    rw [extract_eq c b]
    cases hs : cutAt c.startMark b with
    | none => rfl
    | some p =>
      obtain ⟨g, r⟩ := p
      simp only [hs] at h ⊢
      cases he : cutAt c.endMark r with
      | none => exact (extract_of_cutAt c (cutAt_append hs x)).symm
      | some q =>
        obtain ⟨i, t⟩ := q
        simp only [he] at h ⊢
        cases hu : unpack c (c.startMark :: (i ++ [c.endMark])) with
        | message m => simp [hu] at h
        | malformed w =>
          simp only [hu] at h ⊢
          rw [ih g r hs h, extract_eq c (b ++ x)]
          simp only [cutAt_append hs x, cutAt_append he x, hu]

end Sys2Proof.Codec

namespace Sys2Proof.Machine

open Codec Safety

variable {s : State} {r : Record} {rest : List Input} {i : Instr}

/-! ### A step -/

theorem readRecord_of_decode {c : Config} (h : decode c r = .ok i) : readRecord c r = .ok i := by
  simp only [readRecord, h]

/-- Wire bytes that are no row of the table arrive all the same (20_memory.md R41). -/
theorem readRecord_wire_of_error {c : Config} {bytes : Bytes} {e : DecodeError} (h : decode c ⟨.wire, bytes⟩ = .error e) :
    readRecord c ⟨.wire, bytes⟩ = .ok (.rxBytes bytes) := by
  simp only [readRecord, h]

theorem issuedInstr_op_of_error {c : Config} {bytes : Bytes} {e : DecodeError} (h : decode c ⟨.op, bytes⟩ = .error e) :
    issuedInstr c ⟨.op, bytes⟩ = .error .undecodable := by
  simp only [issuedInstr, readRecord, h]

/-- A record of the environment that is taken leaves the queue and its instruction runs (60_exceptions.md R192). -/
theorem step_of_issuedInstr_ok (hin : s.inbox = .issue r :: rest) (hi : issuedInstr s.cfg r = .ok i) :
    step s = exec i { s with inbox := rest } := by
  simp only [step, hin, hi]

theorem step_of_issuedInstr_error {why : Refusal} (hin : s.inbox = .issue r :: rest)
    (hi : issuedInstr s.cfg r = .error why) : step s = .refused why := by
  simp only [step, hin, hi]

theorem step_of_innerInstr_ok (hin : s.inbox = .inner r :: rest) (hi : innerInstr s.cfg r = .ok i) :
    step s = exec i { s with inbox := rest } := by
  simp only [step, hin, hi]

/-- Settles O3: what each kind of record is read as decides the step. -/
theorem stepRunsTheDecodedOperation : Obligations.StepRunsTheDecodedOperation := by
  intro s
  refine ⟨fun r rest i hin hdec hout => ?_, fun r rest i hin hdec => ?_, fun level rest hin => ?_,
    fun bytes rest e hin herr => ?_, fun bytes rest e hin herr => ?_, fun hin => ?_⟩
  · exact step_of_issuedInstr_ok hin (issuedInstr_eq_ok.2 ⟨readRecord_of_decode hdec, hout⟩)
  · exact step_of_innerInstr_ok hin (innerInstr_eq_ok.2 (readRecord_of_decode hdec))
  · simp only [step, hin]; rfl
  · exact step_of_issuedInstr_ok hin (issuedInstr_eq_ok.2 ⟨readRecord_wire_of_error herr, rfl⟩)
  · exact step_of_issuedInstr_error hin (issuedInstr_op_of_error herr)
  · simp only [step, hin]

/-! ### The RX stream (20_memory.md R42) -/

/-- RX_BYTES reads the buffer and the chunk only through EXTRACT of the two together. -/
theorem receive_setRxBuf {buf a b : Bytes} (h : extract s.cfg (buf ++ b) = extract s.cfg (s.block.rxBuf ++ a)) :
    receive (s.setRxBuf buf) b = receive s a := by
  rw [receive_eq, receive_eq s]
  simp only [State.setRxBuf_cfg, State.setRxBuf_rxBuf, State.setRxBuf_setRxBuf, h]

/-- Two chunks one after the other are one chunk: a message of the first chunk is handled before the bytes of the
second are read, and what is left over at its end waits for them. -/
theorem receive_receive (s : State) (a b : Bytes) : receive (receive s a) b = receive s (a ++ b) := by
  induction s, a using receive_induct with
  | none s a h =>
    rw [receive_of_none h]
    refine receive_setRxBuf ?_
    rw [extract_append_of_none s.cfg h, List.append_assoc]
  | some s a m h ih =>
    have hboth : extract s.cfg (s.block.rxBuf ++ (a ++ b)) =
        ⟨some m, (extract s.cfg (s.block.rxBuf ++ a)).rest ++ b⟩ := by
      rw [← List.append_assoc, extract_append_of_some s.cfg h]
    rw [receive_of_some h, ih, receive_of_some (congrArg ExtractResult.msg hboth), hboth, List.nil_append,
      handleMessage_setRxBuf, handleMessage_setRxBuf]
    exact (receive_setRxBuf (s := (handleMessage s m).setRxBuf _) (by simp)).symm

/-- Settles O31: the three runs of RX_BYTES are runs of `receive`. -/
theorem rxBytesIgnoresFragmentation : Obligations.RxBytesIgnoresFragmentation := by
  intro s a b
  exact ⟨receive s a, receive (receive s a) b, rfl, rfl, congrArg Host.Outcome.next (receive_receive s a b).symm⟩

/-! ### The TX stream (20_memory.md R40 (b), R43) -/

@[simp] theorem giveUpPending_countP_isTxWrite (s : State) :
    (giveUpPending s).trace.countP isTxWrite = s.trace.countP isTxWrite := by
  rcases giveUpPending_cases s with ⟨-, h⟩ | ⟨-, h⟩ <;> simp [h, isTxWrite]

/-- An accepted SEND_DATA writes its frame. -/
@[simp] theorem sendAccepted_countP_isTxWrite (s : State) (p : Bytes) :
    (sendAccepted s p).trace.countP isTxWrite = s.trace.countP isTxWrite + 1 := by
  simp [sendAccepted, isTxWrite, List.countP_cons]

/-- FRAME_DATA writes its ACK, matched or not. -/
@[simp] theorem answerAndDeliver_countP_isTxWrite (s : State) (m : Message) :
    (answerAndDeliver s m).trace.countP isTxWrite = s.trace.countP isTxWrite + 1 := by
  rcases answerAndDeliver_cases s m with ⟨-, h⟩ | ⟨-, h⟩ <;> simp [h, isTxWrite, List.countP_cons]

/-- Settles O53: of the kinds of instructions without arriving bytes, an accepted SEND_DATA and FRAME_DATA write one
frame, and the others none. -/
theorem onlySendDataAndFrameDataTransmit : Obligations.OnlySendDataAndFrameDataTransmit := by
  intro i s t h hquiet
  rcases exec_kind_cases h with ⟨-, r, rfl⟩ | ⟨hi, -⟩ | ⟨p, w, -, rfl⟩ | ⟨p, rfl, -, rfl⟩ | ⟨q, p, -, rfl⟩ |
    ⟨m, rfl, rfl⟩ | ⟨-, rfl⟩ | ⟨-, rfl⟩ | ⟨-, rfl⟩
  · exact .inl rfl
  · simp [hquiet] at hi
  · exact .inl (by simp [isTxWrite])
  · exact .inr ⟨sendAccepted_countP_isTxWrite s p, .inl ⟨p, rfl⟩⟩
  · exact .inl rfl
  · exact .inr ⟨answerAndDeliver_countP_isTxWrite s m, .inr ⟨m, rfl⟩⟩
  · exact .inl (giveUpPending_countP_isTxWrite s)
  · exact .inl (giveUpPending_countP_isTxWrite s)
  · exact .inl rfl

end Sys2Proof.Machine
end

