-- ==== Sys2Proof/Proofs/Encoding.lean ====
section
/-! PROOF. The encoding (30_encoding.md): UNPACK inverts PACK, so decode and encode agree on every row of the table; and
what the wire rows do when their bytes arrive. -/

namespace Sys2Proof.Codec

variable {c : Config}

/-! ### The bytes of a frame -/

/-- The reserved bytes are distinct (00_scope.md R6 (a)). -/
theorem reserved_ne (h : c.Valid) :
    c.startMark ≠ c.endMark ∧ c.startMark ≠ c.escMark ∧ c.endMark ≠ c.escMark := by
  obtain ⟨hres, -⟩ := h
  simpa [and_assoc] using hres

/-- UNESCAPE reads back the image of one byte and goes on behind it (40_codec_bytes.md R96). -/
theorem unescape_escapeByte_append (h : c.Valid) (b : Byte) (rest : Bytes) :
    unescape c (escapeByte c b ++ rest) = b :: unescape c rest := by
  obtain ⟨hres, hsub, -, -⟩ := h
  cases hb : substituteOf c b with
  | some x =>
    have hpair : originalOf c x = some b := (originalOf_eq_some_iff_substituteOf hres hsub).2 hb
    simp only [escapeByte, hb]
    exact unescape_pair c hpair rest
  | none =>
    have hplain : b ∉ c.reserved := (substituteOf_eq_none_iff c b).1 hb
    have hesc : b ≠ c.escMark := fun he => hplain (by simp [he])
    simp only [escapeByte, hb]
    exact unescape_literal c (.inl hesc)

/-- UNESCAPE undoes ESCAPE (40_codec_bytes.md R96). -/
theorem unescape_escape (h : c.Valid) (b : Bytes) : unescape c (escape c b) = b := by
  induction b with
  | nil => rfl
  | cons x xs ih => rw [escape_cons, unescape_escapeByte_append h, ih]

/-- An escape pair holds no marker: ESC is none, and no substitute is reserved (00_scope.md R6 (c)). -/
theorem not_mem_escapePair (h : c.Valid) {v x : Byte} (hv : v = c.startMark ∨ v = c.endMark) (hx : x ∈ c.substitutes) :
    v ∉ [c.escMark, x] := by
  obtain ⟨-, hstart, hend⟩ := reserved_ne h
  obtain ⟨-, -, hsub, -⟩ := h
  have hvesc : v ≠ c.escMark := by
    rcases hv with rfl | rfl
    · exact hstart
    · exact hend
  have hvx : v ≠ x := by
    rintro rfl
    exact hsub v hx (by rcases hv with rfl | rfl <;> simp)
  simp [hvesc, hvx]

/-- What ESCAPE makes of one byte holds no marker, whether the byte is reserved or not. -/
theorem not_mem_escapeByte (h : c.Valid) {v : Byte} (hv : v = c.startMark ∨ v = c.endMark) (b : Byte) :
    v ∉ escapeByte c b := by
  cases hb : substituteOf c b with
  | none =>
    have hplain : b ∉ c.reserved := (substituteOf_eq_none_iff c b).1 hb
    have hmem : v ∈ c.reserved := by rcases hv with rfl | rfl <;> simp
    simpa only [escapeByte, hb, List.mem_singleton] using ne_of_mem_of_not_mem hmem hplain
  | some x =>
    have hx : x ∈ c.substitutes := by
      rcases (substituteOf_eq_some_iff h.1).1 hb with ⟨-, rfl⟩ | ⟨-, rfl⟩ | ⟨-, rfl⟩ <;> simp
    simpa only [escapeByte, hb] using not_mem_escapePair h hv hx

/-- ESCAPE's output holds no marker (40_codec_bytes.md R92). -/
theorem not_mem_escape (h : c.Valid) {v : Byte} (hv : v = c.startMark ∨ v = c.endMark) (b : Bytes) :
    v ∉ escape c b := by
  induction b with
  | nil => simp
  | cons x xs ih => simp [not_mem_escapeByte h hv x, ih]

theorem frameBytes_eq (c : Config) (t q : Byte) (p : Bytes) : frameBytes c t q p =
    c.startMark :: (escape c (innerBytes t q p ++ [checksum (innerBytes t q p)]) ++ [c.endMark]) := rfl

theorem pack_eq_some (c : Config) (t q : Byte) {p : Bytes} (hp : p.length ≤ maxPayload) :
    pack c t q p = some (frameBytes c t q p) := if_pos hp

/-! ### UNPACK -/

/-- Between the markers UNPACK reads the unescaped interior (41_codec_frame.md R114). -/
theorem unpack_interior (c : Config) (i : Bytes) :
    unpack c (c.startMark :: (i ++ [c.endMark])) = unpackInner (unescape c i) := by
  simp [unpack, slice, List.getLast?_cons]

/-- Tests 3 and 4 of UNPACK on a header, a payload and a last byte (41_codec_frame.md R116, R117). -/
theorem unpackInner_eq (t q l3 l2 l1 l0 k : Byte) (p : Bytes) :
    unpackInner (t :: q :: l3 :: l2 :: l1 :: l0 :: (p ++ [k])) =
      if checksum (t :: q :: l3 :: l2 :: l1 :: l0 :: p) ≠ k then .malformed .checksum
      else if p.length ≠ be32 l3 l2 l1 l0 then .malformed .length
      else .message ⟨t, q, p⟩ := by
  simp [unpackInner, slice, minInner]

/-- The length field holds every payload length that fits it (30_encoding.md R67). -/
theorem be32_lengthBytes {n : Nat} (h : n ≤ maxPayload) :
    be32 (BitVec.ofNat 8 (n / 2 ^ 24)) (BitVec.ofNat 8 (n / 2 ^ 16)) (BitVec.ofNat 8 (n / 2 ^ 8)) (BitVec.ofNat 8 n) =
      n := by
  unfold maxPayload at h
  simp only [be32, BitVec.toNat_ofNat]
  omega

/-- UNPACK reads a frame of PACK as its message (41_codec_frame.md R119). -/
theorem unpack_frameBytes (h : c.Valid) (t q : Byte) {p : Bytes} (hp : p.length ≤ maxPayload) :
    unpack c (frameBytes c t q p) = .message ⟨t, q, p⟩ := by
  rw [frameBytes_eq, unpack_interior, unescape_escape h]
  exact (unpackInner_eq ..).trans
    ((if_neg (not_not.2 rfl)).trans (if_neg (not_not.2 (be32_lengthBytes hp).symm)))

theorem be32_le (b3 b2 b1 b0 : Byte) : be32 b3 b2 b1 b0 ≤ maxPayload := by
  unfold be32 maxPayload
  omega

/-- A message passes test 4 (41_codec_frame.md R117), so its payload has the length of a 32-bit field. -/
theorem unpackInner_payload_length {u : Bytes} {m : Message} (h : unpackInner u = .message m) :
    m.payload.length ≤ maxPayload := by
  unfold unpackInner at h
  dsimp only at h
  split at h
  · cases h
  · split at h
    · cases h
    · split at h
      · cases h
      · next hlen =>
        injection h with h
        subst h
        calc (slice u hdrBytes (u.length - 1)).length
            = u.length - minInner := by simp [slice, minInner, hdrBytes]; omega
          _ = _ := not_not.1 hlen
          _ ≤ maxPayload := be32_le ..

theorem unpack_payload_length {raw : Bytes} {m : Message} (h : unpack c raw = .message m) :
    m.payload.length ≤ maxPayload := by
  unfold unpack at h
  split at h
  · cases h
  · exact unpackInner_payload_length h

/-! ### EXTRACT -/

/-- EXTRACT finds a frame of PACK behind bytes without START (42_codec_extract.md R138 (a)). -/
theorem extract_frameBytes (h : c.Valid) (t q : Byte) {p g : Bytes} (hp : p.length ≤ maxPayload)
    (hg : c.startMark ∉ g) (tail : Bytes) :
    extract c (g ++ frameBytes c t q p ++ tail) = ⟨some ⟨t, q, p⟩, tail⟩ := by
  have hframe := unpack_frameBytes h t q hp
  have hinterior := not_mem_escape h (.inr rfl) (innerBytes t q p ++ [checksum (innerBytes t q p)])
  rw [frameBytes_eq] at hframe ⊢
  generalize escape c _ = i at hframe hinterior ⊢
  have hstart : cutAt c.startMark (g ++ c.startMark :: (i ++ [c.endMark]) ++ tail) =
      some (g, i ++ c.endMark :: tail) := cutAt_eq_some.2 ⟨by simp, hg⟩
  have hend : cutAt c.endMark (i ++ c.endMark :: tail) = some (i, tail) := cutAt_eq_some.2 ⟨rfl, hinterior⟩
  rw [extract_eq, hstart]
  simp only [hend, hframe]

end Sys2Proof.Codec

namespace Sys2Proof

open Codec

variable {c : Config} {i : Instr}

/-! ### WIRE records -/

/-- Bytes that do not begin with ESC are read as a frame. -/
theorem decodeWire_of_ne_escMark {b : Byte} (hb : b ≠ c.escMark) (rest : Bytes) :
    decodeWire c (b :: rest) = decodeFrame c (b :: rest) := by
  rcases rest with _ | ⟨x, _ | ⟨y, ys⟩⟩
  · rfl
  · exact if_neg hb
  · rfl

/-- ESC and a substitute are read as the pair of its original (30_encoding.md R63). -/
theorem decodeWire_escapePair {x o : Byte} (h : originalOf c x = some o) :
    decodeWire c [c.escMark, x] = .ok (escapePairOf c o) := by
  simp [decodeWire, h]

/-- Wire bytes that decode are an escape pair or a frame. -/
theorem decodeWire_cases {bytes : Bytes} (h : decodeWire c bytes = .ok i) :
    (∃ x o, bytes = [c.escMark, x] ∧ originalOf c x = some o ∧ i = escapePairOf c o) ∨ decodeFrame c bytes = .ok i := by
  unfold decodeWire at h
  split at h
  · cases h
  · next b x =>
    split at h
    · next hb =>
      split at h
      · next o ho => cases h; exact .inl ⟨x, o, by rw [hb], ho, rfl⟩
      · exact .inr h
    · exact .inr h
  · exact .inr h

/-- A frame of PACK decodes by its type (30_encoding.md R68, R69). -/
theorem decodeFrame_frameBytes (h : c.Valid) (t q : Byte) {p : Bytes} (hp : p.length ≤ maxPayload) :
    decodeFrame c (frameBytes c t q p) =
      if t = c.dtAck then .ok (.wireFrameAck q p)
      else if t = c.dtData then .ok (.wireFrameData q p)
      else .error (.unnamedDataType t) := by
  simp [decodeFrame, unpack_frameBytes h t q hp]

/-- A frame begins with START, so it is never read as an escape pair. -/
theorem decodeWire_frameBytes (h : c.Valid) (t q : Byte) (p : Bytes) :
    decodeWire c (frameBytes c t q p) = decodeFrame c (frameBytes c t q p) := by
  obtain ⟨-, hne, -⟩ := reserved_ne h
  exact decodeWire_of_ne_escMark hne _

/-- A frame decodes only if it is what PACK makes of a message of a named type. -/
theorem decodeFrame_cases {raw : Bytes} (h : decodeFrame c raw = .ok i) :
    ∃ q p, p.length ≤ maxPayload ∧
      ((i = .wireFrameAck q p ∧ raw = frameBytes c c.dtAck q p) ∨
        (i = .wireFrameData q p ∧ raw = frameBytes c c.dtData q p)) := by
  unfold decodeFrame at h
  split at h
  · cases h
  · next m hm =>
    refine ⟨m.seq, m.payload, unpack_payload_length hm, ?_⟩
    split_ifs at h with hcanon hack hdata
    · injection h with h
      exact .inl ⟨h.symm, by rw [← hack, not_not.1 hcanon]⟩
    · injection h with h
      exact .inr ⟨h.symm, by rw [← hdata, not_not.1 hcanon]⟩

/-- The three escape pairs (30_encoding.md R63). -/
theorem escapePairOf_reserved (h : c.Valid) :
    escapePairOf c c.startMark = .wireEscStart ∧ escapePairOf c c.endMark = .wireEscEnd ∧
      escapePairOf c c.escMark = .wireEscEsc := by
  obtain ⟨hse, hsx, hex⟩ := reserved_ne h
  simp [escapePairOf, hse.symm, hsx.symm, hex.symm]

theorem encode_escapePairOf (h : c.Valid) {x o : Byte} (ho : originalOf c x = some o) :
    encode c (escapePairOf c o) = ⟨.wire, [c.escMark, x]⟩ := by
  obtain ⟨hstart, hend, hesc⟩ := escapePairOf_reserved h
  obtain ⟨-, hsub, -⟩ := h
  rcases (originalOf_eq_some_iff hsub).1 ho with ⟨rfl, rfl⟩ | ⟨rfl, rfl⟩ | ⟨rfl, rfl⟩
  · rw [hstart]; rfl
  · rw [hend]; rfl
  · rw [hesc]; rfl

theorem wellFormed_escapePairOf (c : Config) (o : Byte) : wellFormed c (escapePairOf c o) = true := by
  unfold escapePairOf
  split_ifs <;> rfl

/-- A WIRE record that decodes is the encoding of a well-formed wire row. -/
theorem encode_of_decodeWire (h : c.Valid) {bytes : Bytes} (hi : decodeWire c bytes = .ok i) :
    encode c i = ⟨.wire, bytes⟩ ∧ wellFormed c i = true := by
  rcases decodeWire_cases hi with ⟨x, o, rfl, ho, rfl⟩ | hframe
  · exact ⟨encode_escapePairOf h ho, wellFormed_escapePairOf c o⟩
  · obtain ⟨q, p, hp, ⟨rfl, rfl⟩ | ⟨rfl, rfl⟩⟩ := decodeFrame_cases hframe
    · exact ⟨rfl, decide_eq_true hp⟩
    · exact ⟨rfl, decide_eq_true hp⟩

/-! ### OP records -/

/-- An OP record that decodes is the encoding of a well-formed operation: each branch that answers an instruction keeps
every operand, and its op_id fixes the first byte. -/
theorem encode_of_decodeOp {bytes : Bytes} (hi : decodeOp c bytes = .ok i) :
    encode c i = ⟨.op, bytes⟩ ∧ wellFormed c i = true := by
  unfold decodeOp at hi
  split at hi
  · cases hi
  next b operands =>
  have opId {n : Nat} (hb : b.toNat = n) : b = BitVec.ofNat 8 n := by simp [← hb]
  split at hi
  -- FRAME_DATA, the one operation with a test on its operand
  case h_12 t q p hb =>
    split_ifs at hi with hack
    cases hi
    exact ⟨by rw [opId hb]; rfl, decide_eq_true hack⟩
  all_goals cases hi
  all_goals exact ⟨by rw [opId ‹b.toNat = _›]; rfl, rfl⟩

/-! ### Decode and encode agree -/

/-- Settles O5: an operation's op_id selects its branch, an escape pair is read through `unsub`, and a frame is read by
UNPACK, which inverts PACK. -/
theorem decodeOfEncodeIsTheInstruction : Obligations.DecodeOfEncodeIsTheInstruction := by
  intro c i hc hwf
  obtain ⟨hstart, hend, hesc⟩ := escapePairOf_reserved hc
  have ⟨_, hsub, _, htypes⟩ := hc
  cases i
  case frameData m => exact if_neg (of_decide_eq_true hwf)
  case wireFrameData q p =>
    refine (decodeWire_frameBytes hc c.dtData q p).trans ?_
    rw [decodeFrame_frameBytes hc c.dtData q (of_decide_eq_true hwf), if_neg htypes.symm, if_pos rfl]
  case wireFrameAck q p =>
    refine (decodeWire_frameBytes hc c.dtAck q p).trans ?_
    rw [decodeFrame_frameBytes hc c.dtAck q (of_decide_eq_true hwf), if_pos rfl]
  case wireEscStart =>
    exact (decodeWire_escapePair ((originalOf_eq_some_iff hsub).2 (.inl ⟨rfl, rfl⟩))).trans (congrArg _ hstart)
  case wireEscEnd =>
    exact (decodeWire_escapePair ((originalOf_eq_some_iff hsub).2 (.inr (.inl ⟨rfl, rfl⟩)))).trans (congrArg _ hend)
  case wireEscEsc =>
    exact (decodeWire_escapePair ((originalOf_eq_some_iff hsub).2 (.inr (.inr ⟨rfl, rfl⟩)))).trans (congrArg _ hesc)
  all_goals rfl

/-- Settles O6, by the two formats. -/
theorem encodeOfDecodeIsTheRecord : Obligations.EncodeOfDecodeIsTheRecord := by
  rintro c ⟨_ | _, bytes⟩ i hc hi
  · exact encode_of_decodeOp hi
  · exact encode_of_decodeWire hc hi

/-- Settles O4: each word that decodes is the encoding of its instruction, so O5 applies; the other two are no op_id. -/
theorem wordsWrittenFromTheTableDecode : Obligations.WordsWrittenFromTheTableDecode := by
  have hdec {i : Instr} (hwf : wellFormed Config.default i = true) :
      decode Config.default (encode Config.default i) = .ok i :=
    decodeOfEncodeIsTheInstruction Config.default i (by decide) hwf
  exact ⟨hdec (i := .escape [0x3C]) rfl, hdec (i := .pack 0x0C 0x01 [0x22]) rfl, hdec (i := .sendData [0x22]) rfl,
    hdec (i := .closed) rfl, rfl, rfl, hdec (i := .wireFrameData 0x00 [0x22]) rfl,
    hdec (i := .wireFrameAck 0x01 []) rfl, hdec (i := .wireEscEnd) rfl⟩

end Sys2Proof

namespace Sys2Proof.Machine

open Codec Safety

variable {s : State}

/-! ### Frames sent and received -/

/-- PACK returns the frame of a payload that has an encoding (41_codec_frame.md R110). -/
theorem exec_pack_eq (t q : Byte) {p : Bytes} (hp : p.length ≤ maxPayload) :
    exec (.pack t q p) s = .next (s.giveBack (.frame (frameBytes s.cfg t q p))) := by
  simp only [exec, execPack, pack_eq_some s.cfg t q hp]

/-- SEND_DATA that is enabled is accepted (43_ack_sequencer.md R150, R152). -/
theorem exec_sendData_of_enabled {p : Bytes} (h : sendRefusal s p = none) :
    exec (.sendData p) s = .next (sendAccepted s p) := by
  simp only [exec, execSendData, h]

/-- Settles O29: the frame written is the encoding of the FRAME.DATA row. -/
theorem sentFrameIsTheDataFrameRow : Obligations.SentFrameIsTheDataFrameRow := by
  intro s op p hc hready hfree hp
  have hsent : exec (.sendData (op :: p)) s = .next (sendAccepted s (op :: p)) :=
    exec_sendData_of_enabled (sendRefusal_eq_none.2 ⟨hready, hfree, List.cons_ne_nil op p, hp⟩)
  refine ⟨frameBytes s.cfg s.cfg.dtData s.block.sendSeq (op :: p), _, hsent, by simp [sendAccepted], ?_⟩
  exact decodeOfEncodeIsTheInstruction s.cfg (.wireFrameData s.block.sendSeq (op :: p)) hc (decide_eq_true hp)

/-- A frame of PACK that arrives with no START waiting is one message, handled with the buffer emptied
(42_codec_extract.md R138 (a), 43_ack_sequencer.md R160). -/
theorem receive_frameBytes (h : s.cfg.Valid) (t q : Byte) {p : Bytes} (hp : p.length ≤ maxPayload)
    (hbuf : s.cfg.startMark ∉ s.block.rxBuf) :
    receive s (frameBytes s.cfg t q p) = handleMessage (s.setRxBuf []) ⟨t, q, p⟩ := by
  have hextract : extract s.cfg (s.block.rxBuf ++ frameBytes s.cfg t q p) = ⟨some ⟨t, q, p⟩, []⟩ := by
    simpa using extract_frameBytes h t q hp hbuf []
  rw [receive_of_some (congrArg ExtractResult.msg hextract), hextract]
  exact receive_nil_of_rxShape (.inl (by simp))

/-- Settles O44: the row arrives as the frame PACK makes, and its message is no ACK. -/
theorem dataFrameOnTheWireIsHandled : Obligations.DataFrameOnTheWireIsHandled := by
  intro s q p hc hp
  refine ⟨frameBytes s.cfg s.cfg.dtData q p, receive s (frameBytes s.cfg s.cfg.dtData q p), exec_pack_eq _ q hp,
    receiveFrame_eq hp, rfl, fun hbuf => ?_⟩
  have ⟨_, _, _, htypes⟩ := hc
  rw [receive_frameBytes hc _ q hp hbuf, handleMessage_data htypes.symm]
  exact execFrameData_eq htypes.symm

/-- Settles O45: the row arrives as the frame PACK makes, and its message is an ACK. -/
theorem ackFrameOnTheWireIsHandled : Obligations.AckFrameOnTheWireIsHandled := by
  intro s q p hc hp
  refine ⟨frameBytes s.cfg s.cfg.dtAck q p, receive s (frameBytes s.cfg s.cfg.dtAck q p), exec_pack_eq _ q hp,
    receiveFrame_eq hp, rfl, fun hbuf => ?_⟩
  rw [receive_frameBytes hc _ q hp hbuf, handleMessage_ack rfl]
  rfl

/-! ### Escape pairs received -/

/-- A buffer in a shape of 42_codec_extract.md R139 keeps one when bytes without markers are appended. -/
theorem rxShape_append {c : Config} {b x : Bytes} (h : RxShape c b) (hstart : c.startMark ∉ x) (hend : c.endMark ∉ x) :
    RxShape c (b ++ x) := by
  rcases h with hb | ⟨hhead, hb⟩
  · exact .inl (by simp [hb, hstart])
  · obtain ⟨r, rfl⟩ := List.head?_eq_some_iff.1 hhead
    exact .inr ⟨rfl, by simpa [hend] using hb⟩

/-- Bytes without markers join such a buffer and do nothing else (42_codec_extract.md R131, R132). -/
theorem receive_of_no_markers {x : Bytes} (h : RxShape s.cfg s.block.rxBuf) (hstart : s.cfg.startMark ∉ x)
    (hend : s.cfg.endMark ∉ x) : receive s x = s.setRxBuf (s.block.rxBuf ++ x) := by
  have hextract := extract_of_rxShape s.cfg (rxShape_append h hstart hend)
  rw [receive_of_none (congrArg ExtractResult.msg hextract), hextract]

/-- Settles O46: the two bytes of a pair arrive, and they hold no marker. -/
theorem escapePairsOnTheWireJoinTheBuffer : Obligations.EscapePairsOnTheWireJoinTheBuffer := by
  intro s hc i x hix
  have harrive : exec i s = .next (receive s [s.cfg.escMark, x]) := by
    rcases hix with ⟨rfl, rfl⟩ | ⟨rfl, rfl⟩ | ⟨rfl, rfl⟩ <;> rfl
  have hx : x ∈ s.cfg.substitutes := by
    rcases hix with ⟨-, rfl⟩ | ⟨-, rfl⟩ | ⟨-, rfl⟩ <;> simp
  refine ⟨⟨_, harrive, rfl⟩, fun hshape => ?_⟩
  rw [harrive, receive_of_no_markers hshape (not_mem_escapePair hc (.inl rfl) hx) (not_mem_escapePair hc (.inr rfl) hx)]
  rfl

end Sys2Proof.Machine
end

