-- ==== Sys2Proof/Proofs/CodecBytes.lean ====
section
/-! PROOF. The byte operations of the frame_codec (40_codec_bytes.md): ESCAPE, UNESCAPE and CHECKSUM. -/

namespace Sys2Proof.Codec

variable {c : Config}

/-! ### ESCAPE -/

/-- The image of a byte is `ESC, sub(b)` or the byte itself, by `sub` written out (R90). -/
theorem escapeByte_eq (c : Config) (b : Byte) : escapeByte c b =
    if b = c.startMark then [c.escMark, c.subStart]
    else if b = c.endMark then [c.escMark, c.subEnd]
    else if b = c.escMark then [c.escMark, c.subEsc]
    else [b] := by
  unfold escapeByte substituteOf
  split_ifs <;> rfl

theorem escape_eq_flatMap (c : Config) (b : Bytes) : escape c b = b.flatMap (escapeByte c) := by
  induction b with
  | nil => rfl
  | cons x xs ih => rw [escape_cons, List.flatMap_cons, ih]

theorem mem_substitutes_of_substituteOf {b x : Byte} (h : substituteOf c b = some x) : x ∈ c.substitutes := by
  unfold substituteOf at h
  split_ifs at h <;> simp_all

/-- A reserved byte becomes ESC and a substitute, any other byte stands for itself. -/
theorem escapeByte_cases (c : Config) (b : Byte) :
    (b ∈ c.reserved ∧ ∃ x ∈ c.substitutes, escapeByte c b = [c.escMark, x]) ∨
      (b ∉ c.reserved ∧ escapeByte c b = [b]) := by
  by_cases hb : b ∈ c.reserved
  · obtain ⟨x, hx⟩ := mem_reserved_iff_exists.1 hb
    exact .inl ⟨hb, x, mem_substitutes_of_substituteOf hx, by simp only [escapeByte, hx]⟩
  · exact .inr ⟨hb, escapeByte_of_not_reserved c hb⟩

/-- Each reserved byte makes the output one byte longer (R91). -/
theorem length_escape (c : Config) (b : Bytes) :
    (escape c b).length = b.length + b.countP (fun x => decide (x ∈ c.reserved)) := by
  induction b with
  | nil => rfl
  | cons x xs ih =>
    rw [escape_cons, List.length_append, ih, List.length_cons, List.countP_cons]
    rcases escapeByte_cases c x with ⟨hx, y, -, he⟩ | ⟨hx, he⟩
    · rw [he, if_pos (decide_eq_true hx), List.length_cons, List.length_singleton]; omega
    · rw [he, if_neg (by simpa using hx), List.length_singleton]; omega

/-- In the output ESC stands only before a substitute (R92): it is no literal, since it is reserved, and no second byte
of a pair, since no substitute is reserved (00_scope.md R6 (c)). -/
theorem escape_escMark_before_substitute (h : c.Valid) (b : Bytes) :
    ∀ i, (escape c b)[i]? = some c.escMark → ∃ x ∈ c.substitutes, (escape c b)[i + 1]? = some x := by
  obtain ⟨-, -, hsub, -⟩ := h
  induction b with
  | nil => simp
  | cons z zs ih =>
    intro i hi
    rw [escape_cons] at hi ⊢
    rcases escapeByte_cases c z with ⟨-, x, hx, he⟩ | ⟨hz, he⟩
    · rw [he] at hi ⊢
      match i with
      | 0 => exact ⟨x, hx, rfl⟩
      | 1 =>
        obtain rfl : x = c.escMark := by simpa using hi
        exact absurd (by simp) (hsub _ hx)
      | i + 2 => exact ih i hi
    · rw [he] at hi ⊢
      match i with
      | 0 =>
        obtain rfl : z = c.escMark := by simpa using hi
        exact absurd (by simp) hz
      | i + 1 => exact ih i hi

/-! ### CHECKSUM -/

/-- The 8-bit accumulator holds the integer sum modulo 256 (R99). -/
theorem checksum_eq_ofNat_sum (b : Bytes) : checksum b = BitVec.ofNat 8 (b.map BitVec.toNat).sum := by
  induction b with
  | nil => rfl
  | cons x xs ih =>
    rw [checksum_cons, ih, List.map_cons, List.sum_cons, BitVec.ofNat_add, BitVec.ofNat_toNat, BitVec.setWidth_eq]

/-- The checksum tells two bytes at one place apart (R101). -/
theorem checksum_append_cons_inj {a b : Bytes} {x y : Byte} :
    checksum (a ++ x :: b) = checksum (a ++ y :: b) ↔ x = y := by
  simp only [checksum_append, checksum_cons, add_right_inj, add_left_inj]

end Sys2Proof.Codec

namespace Sys2Proof.Machine

open Codec

/-! ### The operations give back what the frame_codec computes -/

theorem exec_escape_eq (s : State) (b : Bytes) :
    exec (.escape b) s = .next { s with returned := s.returned ++ [.bytes (escape s.cfg b)] } := rfl

theorem exec_unescape_eq (s : State) (x : Bytes) :
    exec (.unescape x) s = .next { s with returned := s.returned ++ [.bytes (unescape s.cfg x)] } := rfl

theorem exec_checksum_eq (s : State) (b : Bytes) :
    exec (.checksum b) s = .next { s with returned := s.returned ++ [.byte (checksum b)] } := rfl

/-- Settles O10: ESCAPE joins the images of the bytes, and each image is `sub` written out. -/
theorem escapeMapsEachByte : Obligations.EscapeMapsEachByte := by
  intro s b
  rw [exec_escape_eq, escape_eq_flatMap, funext (escapeByte_eq s.cfg)]

/-- Settles O11, by induction on the input for each of the three facts. -/
theorem escapeOutputHasNoMarkers : Obligations.EscapeOutputHasNoMarkers := fun s b hc =>
  ⟨escape s.cfg b, exec_escape_eq s b, length_escape s.cfg b, not_mem_escape hc (.inl rfl) b,
    not_mem_escape hc (.inr rfl) b, escape_escMark_before_substitute hc b⟩

/-- Settles O12: a pair is read through `unsub`, and any other byte, a stray ESC too, as itself. -/
theorem unescapeReadsPairsAndLiterals : Obligations.UnescapeReadsPairsAndLiterals := by
  rintro s ⟨-, hsub, -, -⟩
  have readsPair {o z : Byte} (x : Bytes) (ho : originalOf s.cfg z = some o) :
      exec (.unescape (s.cfg.escMark :: z :: x)) s =
        .next { s with returned := s.returned ++ [.bytes (o :: unescape s.cfg x)] } := by
    rw [exec_unescape_eq, unescape_pair s.cfg ho]
  refine ⟨rfl, fun x => ⟨unescape s.cfg x, exec_unescape_eq s x,
    readsPair x ((originalOf_eq_some_iff hsub).2 (.inl ⟨rfl, rfl⟩)),
    readsPair x ((originalOf_eq_some_iff hsub).2 (.inr (.inl ⟨rfl, rfl⟩))),
    readsPair x ((originalOf_eq_some_iff hsub).2 (.inr (.inr ⟨rfl, rfl⟩))), fun b hb => ?_⟩⟩
  have hliteral : b ≠ s.cfg.escMark ∨ ∀ z, x.head? = some z → originalOf s.cfg z = none :=
    hb.imp_right fun hstray z hz => (originalOf_eq_none_iff s.cfg z).2 (hstray z hz)
  rw [exec_unescape_eq, unescape_literal s.cfg hliteral]

/-- Settles O13: UNESCAPE reads the image of one byte at a time. -/
theorem unescapeUndoesEscape : Obligations.UnescapeUndoesEscape := by
  intro s b hc
  refine ⟨escape s.cfg b, exec_escape_eq s b, ?_⟩
  rw [exec_unescape_eq, unescape_escape hc]

/-- Settles O14: the accumulator is 8 bits wide, so it takes the sum modulo 256. -/
theorem checksumIsTheSumModulo256 : Obligations.ChecksumIsTheSumModulo256 := by
  intro s b
  have hmod (n : Nat) : BitVec.ofNat 8 n = BitVec.ofNat 8 (n % 256) := BitVec.eq_of_toNat_eq (by simp)
  rw [exec_checksum_eq, checksum_eq_ofNat_sum, hmod]

/-- Settles O15: all other summands agree, and they cancel. -/
theorem checksumSeesOneChangedByte : Obligations.ChecksumSeesOneChangedByte := fun s a b x y hxy =>
  ⟨checksum (a ++ x :: b), checksum (a ++ y :: b), exec_checksum_eq s _, exec_checksum_eq s _,
    mt checksum_append_cons_inj.1 hxy⟩

end Sys2Proof.Machine
end

