-- ==== Sys2Proof/Proofs/CodecFrame.lean ====
section
/-! PROOF. Frames (41_codec_frame.md): what PACK builds, the tests of UNPACK, and what becomes of a frame with one
corrupted byte. -/

namespace Sys2Proof.Codec

variable {c : Config}

/-! ### PACK -/

/-- Dividing by `2 ^ k` and keeping one byte is reading the bit field from `k` (30_encoding.md R67). -/
theorem ofNat_div_two_pow_eq_extractLsb' (n : Nat) {k : Nat} (hk : k + 8 ≤ 32) :
    BitVec.ofNat 8 (n / 2 ^ k) = (BitVec.ofNat 32 n).extractLsb' k 8 := by
  refine BitVec.eq_of_getLsbD_eq fun i hi => ?_
  have hbit : k + i < 32 := by omega
  simp only [BitVec.getLsbD_ofNat, BitVec.getLsbD_extractLsb', Nat.testBit_div_two_pow, Nat.add_comm i k, hi, hbit,
    decide_true, Bool.true_and]

/-- The header and payload with the length field bit field by bit field (R110). -/
theorem innerBytes_eq_extractLsb' (t q : Byte) (p : Bytes) :
    innerBytes t q p =
      [t, q, (BitVec.ofNat 32 p.length).extractLsb' 24 8, (BitVec.ofNat 32 p.length).extractLsb' 16 8,
        (BitVec.ofNat 32 p.length).extractLsb' 8 8, (BitVec.ofNat 32 p.length).extractLsb' 0 8] ++ p := by
  rw [← ofNat_div_two_pow_eq_extractLsb' p.length (k := 24) (by decide),
    ← ofNat_div_two_pow_eq_extractLsb' p.length (k := 16) (by decide),
    ← ofNat_div_two_pow_eq_extractLsb' p.length (k := 8) (by decide),
    ← ofNat_div_two_pow_eq_extractLsb' p.length (k := 0) (by decide), pow_zero, Nat.div_one]
  rfl

@[simp] theorem length_innerBytes (t q : Byte) (p : Bytes) : (innerBytes t q p).length = 6 + p.length := by
  rw [innerBytes, List.length_append]; rfl

/-- ESCAPE makes nothing shorter and at most doubles it (40_codec_bytes.md R91). -/
theorem length_escape_bounds (c : Config) (b : Bytes) :
    b.length ≤ (escape c b).length ∧ (escape c b).length ≤ 2 * b.length := by
  have hcount := List.countP_le_length (p := fun x => decide (x ∈ c.reserved)) (l := b)
  rw [length_escape]
  omega

theorem pack_eq_none (c : Config) (t q : Byte) {p : Bytes} (hp : maxPayload < p.length) : pack c t q p = none :=
  if_neg (Nat.not_le.2 hp)

/-! ### UNPACK -/

/-- Bytes of length two or more with the markers at their ends have an interior between them. -/
theorem exists_interior {raw : Bytes} (hlen : 2 ≤ raw.length) (hhead : raw.head? = some c.startMark)
    (hlast : raw.getLast? = some c.endMark) : ∃ i, raw = c.startMark :: (i ++ [c.endMark]) := by
  obtain ⟨front, rfl⟩ := List.getLast?_eq_some_iff.1 hlast
  cases front with
  | nil => simp at hlen
  | cons b i =>
    obtain rfl : b = c.startMark := by simpa using hhead
    exact ⟨i, rfl⟩

/-- Test 1 of UNPACK (R114). -/
theorem unpack_of_no_markers {raw : Bytes} (h : ¬ ∃ i, raw = c.startMark :: (i ++ [c.endMark])) :
    unpack c raw = .malformed .markers := by
  refine if_pos ?_
  by_contra hmarked
  simp only [not_or, not_lt, not_not] at hmarked
  obtain ⟨hlen, hhead, hlast⟩ := hmarked
  exact h (exists_interior hlen hhead hlast)

/-- Test 2 of UNPACK (R115). -/
theorem unpackInner_of_short {u : Bytes} (h : u.length < 7) : unpackInner u = .malformed .short := if_pos h

/-- Test 3 of UNPACK on what stands before the last byte (R116). -/
theorem unpackInner_of_checksum_ne {u : Bytes} {k : Byte} (hlen : 6 ≤ u.length) (h : checksum u ≠ k) :
    unpackInner (u ++ [k]) = .malformed .checksum := by
  have hlong : ¬ u.length + 1 < minInner := by unfold minInner; omega
  simp [unpackInner, hlong, h]

/-! ### A frame with one corrupted byte (R120) -/

/-- In ESCAPE's output a byte that is not ESC and does not follow an ESC is a literal: it stands for itself, and the
input is cut at the same place. -/
theorem escape_cut_at_literal {w l r : Bytes} {y : Byte} (h : escape c w = l ++ y :: r) (hy : y ≠ c.escMark)
    (hl : ¬ [c.escMark] <:+ l) : ∃ a b, w = a ++ y :: b ∧ l = escape c a ∧ r = escape c b := by
  induction w generalizing l with
  | nil => simp at h
  | cons z zs ih =>
    rw [escape_cons] at h
    rcases escapeByte_cases c z with ⟨-, x, -, he⟩ | ⟨-, he⟩
    · rw [he] at h
      match l with
      | [] => exact absurd (List.cons.inj h).1.symm hy
      | [e] =>
        obtain rfl : c.escMark = e := (List.cons.inj h).1
        exact absurd List.suffix_rfl hl
      | e :: x' :: l' =>
        obtain ⟨rfl, rfl, hrest⟩ : c.escMark = e ∧ x = x' ∧ escape c zs = l' ++ y :: r := by simpa using h
        obtain ⟨a, b, rfl, rfl, rfl⟩ := ih hrest fun hs => hl (hs.trans (List.suffix_append [_, _] l'))
        exact ⟨z :: a, b, rfl, by rw [escape_cons, he]; rfl, rfl⟩
    · rw [he] at h
      match l with
      | [] =>
        obtain ⟨rfl, rfl⟩ := List.cons.inj h
        exact ⟨[], zs, rfl, rfl, rfl⟩
      | e :: l' =>
        obtain ⟨rfl, hrest⟩ : z = e ∧ escape c zs = l' ++ y :: r := by simpa using h
        obtain ⟨a, b, rfl, rfl, rfl⟩ := ih hrest fun hs => hl (hs.trans (List.suffix_cons z l'))
        exact ⟨z :: a, b, rfl, by rw [escape_cons, he]; rfl, rfl⟩

/-- UNESCAPE reads ESCAPE's output back, whatever follows it. -/
theorem unescape_escape_append (h : c.Valid) (a rest : Bytes) :
    unescape c (escape c a ++ rest) = a ++ unescape c rest := by
  induction a with
  | nil => rfl
  | cons x xs ih => rw [escape_cons, List.append_assoc, unescape_escapeByte_append h, ih, List.cons_append]

/-- One changed byte, the last one too, breaks the equation between a checksum and what it was taken of. -/
theorem unpackInner_of_one_changed_byte {u a b : Bytes} {y v : Byte} (hlen : 6 ≤ u.length)
    (hu : u ++ [checksum u] = a ++ y :: b) (hv : v ≠ y) : unpackInner (a ++ v :: b) = .malformed .checksum := by
  rcases List.eq_nil_or_concat' b with rfl | ⟨b, k, rfl⟩
  · obtain ⟨rfl, hk⟩ := List.append_inj' hu rfl
    obtain rfl : checksum u = y := by simpa using hk
    exact unpackInner_of_checksum_ne hlen hv.symm
  · rw [← List.cons_append, ← List.append_assoc] at hu ⊢
    obtain ⟨rfl, hk⟩ := List.append_inj' hu rfl
    obtain rfl : checksum (a ++ y :: b) = k := by simpa using hk
    exact unpackInner_of_checksum_ne (by simpa using hlen) (mt checksum_append_cons_inj.1 hv)

/-- A frame of PACK with a literal of its interior changed fails by the checksum, unless the new byte makes an escape
pair with the next one. -/
theorem unpack_of_corrupted_literal (h : c.Valid) (t q : Byte) (p : Bytes) {l r : Bytes} {y v : Byte}
    (hi : escape c (innerBytes t q p ++ [checksum (innerBytes t q p)]) = l ++ y :: r) (hy : y ≠ c.escMark)
    (hl : ¬ [c.escMark] <:+ l) (hv : v ≠ y) (hpair : ¬ (v = c.escMark ∧ ∃ x ∈ c.substitutes, r.head? = some x)) :
    unpack c (c.startMark :: (l ++ v :: r ++ [c.endMark])) = .malformed .checksum := by
  obtain ⟨a, b, hu, rfl, rfl⟩ := escape_cut_at_literal hi hy hl
  have hliteral : v ≠ c.escMark ∨ ∀ x, (escape c b).head? = some x → originalOf c x = none := by
    refine (not_and_or.1 hpair).imp_right fun hstray x hx => (originalOf_eq_none_iff c x).2 fun hsub => ?_
    exact hstray ⟨x, hsub, hx⟩
  rw [unpack_interior, unescape_escape_append h, unescape_literal c hliteral, unescape_escape h]
  exact unpackInner_of_one_changed_byte (by simp) hu hv

end Sys2Proof.Codec

namespace Sys2Proof.Machine

open Codec

/-! ### PACK and UNPACK give back what the frame_codec computes -/

theorem exec_unpack_eq (s : State) (raw : Bytes) :
    exec (.unpack raw) s = .next { s with returned := s.returned ++ [.unpacked (unpack s.cfg raw)] } := rfl

/-- Settles O16: each division by a power of two is a bit field of the length. -/
theorem packBuildsTheFrame : Obligations.PackBuildsTheFrame := by
  intro s t q p hp
  dsimp only
  rw [exec_pack_eq t q hp, frameBytes_eq, innerBytes_eq_extractLsb']
  rfl

/-- Settles O17: a longer payload has no frame. -/
theorem packRefusesALongerPayload : Obligations.PackRefusesALongerPayload := by
  intro s t q p hp
  simp only [exec, execPack, pack_eq_none s.cfg t q hp]
  rfl

/-- Settles O18: the interior is ESCAPE's output of `7 + L` bytes. -/
theorem packedFrameShape : Obligations.PackedFrameShape := by
  intro s t q p hc hp
  obtain ⟨hlower, hupper⟩ :=
    length_escape_bounds s.cfg (innerBytes t q p ++ [checksum (innerBytes t q p)])
  rw [List.length_append, length_innerBytes, List.length_singleton] at hlower hupper
  exact ⟨escape s.cfg (innerBytes t q p ++ [checksum (innerBytes t q p)]), exec_pack_eq t q hp,
    not_mem_escape hc (.inl rfl) _, not_mem_escape hc (.inr rfl) _, by omega, by omega⟩

/-- Settles O19, test by test. -/
theorem unpackTestsInOrder : Obligations.UnpackTestsInOrder := by
  intro s
  refine ⟨fun raw hraw => ?_, fun i hshort => ?_, fun i p t q l3 l2 l1 l0 k hi => ?_⟩
  · rw [exec_unpack_eq, unpack_of_no_markers hraw]
  · rw [exec_unpack_eq, unpack_interior, unpackInner_of_short hshort]
  · have htests : unpack s.cfg (s.cfg.startMark :: (i ++ [s.cfg.endMark])) =
        if checksum ([t, q, l3, l2, l1, l0] ++ p) ≠ k then .malformed .checksum
        else if p.length ≠ be32 l3 l2 l1 l0 then .malformed .length
        else .message ⟨t, q, p⟩ := by
      rw [unpack_interior, hi]
      exact unpackInner_eq t q l3 l2 l1 l0 k p
    rw [exec_unpack_eq, htests]
    refine ⟨fun hsum => ?_, fun hsum (hlen : p.length ≠ be32 l3 l2 l1 l0) => ?_,
      fun hsum (hlen : p.length = be32 l3 l2 l1 l0) => ?_⟩
    · rw [if_pos hsum]
    · rw [if_neg (not_not.2 hsum), if_pos hlen]
    · rw [if_neg (not_not.2 hsum), if_neg (not_not.2 hlen)]

/-- Settles O20: UNESCAPE undoes ESCAPE, and the length field holds the length. -/
theorem unpackInvertsPack : Obligations.UnpackInvertsPack := by
  intro s t q p hc hp
  refine ⟨frameBytes s.cfg t q p, exec_pack_eq t q hp, ?_⟩
  rw [exec_unpack_eq, unpack_frameBytes hc t q hp]

/-- What PACK returns is the frame, the returned value being the last of the list. -/
theorem eq_frameBytes_of_exec_pack {s : State} {t q : Byte} {p f : Bytes} (hp : p.length ≤ maxPayload)
    (h : exec (.pack t q p) s = .next { s with returned := s.returned ++ [.frame f] }) : f = frameBytes s.cfg t q p := by
  rw [exec_pack_eq t q hp] at h
  have hreturned := congrArg State.returned (Host.Outcome.next.inj h)
  simpa using hreturned.symm

/-- Settles O21: the byte is a literal of the interior, and the frame with it replaced fails by the checksum. -/
theorem oneCorruptedByteIsMalformed : Obligations.OneCorruptedByteIsMalformed := by
  intro s t q v p f j hc hp hf hj1 hj hv hesc hprev hpair
  obtain rfl := eq_frameBytes_of_exec_pack hp hf
  obtain ⟨n, rfl⟩ := Nat.exists_eq_add_of_le' hj1
  rw [frameBytes_eq] at hj hv hesc hprev hpair ⊢
  generalize hi : escape s.cfg _ = i at hj hv hesc hprev hpair ⊢
  have hn : n < i.length := by simpa using hj
  obtain ⟨l, y, r, rfl, rfl⟩ : ∃ l y r, i = l ++ y :: r ∧ n = l.length :=
    ⟨i.take n, i[n], i.drop (n + 1), by simp, by simp; omega⟩
  have hl : ¬ [s.cfg.escMark] <:+ l := by
    rintro ⟨l', rfl⟩
    simp at hprev
  have hnext : ¬ (v = s.cfg.escMark ∧ ∃ x ∈ s.cfg.substitutes, r.head? = some x) := by
    rintro ⟨rfl, x, hx, hr⟩
    obtain ⟨r', rfl⟩ := List.head?_eq_some_iff.1 hr
    exact hpair ⟨rfl, x, hx, by simp⟩
  have hset : (s.cfg.startMark :: (l ++ y :: r ++ [s.cfg.endMark])).set (l.length + 1) v =
      s.cfg.startMark :: (l ++ v :: r ++ [s.cfg.endMark]) := by simp
  rw [exec_unpack_eq, hset, unpack_of_corrupted_literal hc t q p hi (by simpa using hesc) hl
    (by simpa using Ne.symm hv) hnext]

/-- Settles O47: both rows receive what PACK makes, and PACK makes nothing of such a payload. -/
theorem wireFramesStopOnALongerPayload : Obligations.WireFramesStopOnALongerPayload := fun _ _ _ hp =>
  ⟨receiveFrame_refused hp, receiveFrame_refused hp⟩

end Sys2Proof.Machine
end

