-- ==== Sys2Proof/Proofs/CodecExtract.lean ====
section
/-! PROOF. EXTRACT (42_codec_extract.md): its four cases on a buffer cut at its markers, and what they leave of it. -/

namespace Sys2Proof.Codec

open Safety

variable {c : Config}

/-! ### The four cases (R131 to R134); case A is `extract_of_rxShape` -/

/-- Case B (R132): with no END after the first START the buffer is kept from that START on. -/
theorem extract_of_open {g r : Bytes} (hg : c.startMark ∉ g) (hr : c.endMark ∉ r) :
    extract c (g ++ c.startMark :: r) = ⟨none, c.startMark :: r⟩ := by
  rw [extract_of_cutAt c (cutAt_eq_some.2 ⟨rfl, hg⟩)]
  exact extract_of_rxShape c (.inr ⟨rfl, hr⟩)

/-- Case C (R133): the first candidate is a frame. -/
theorem extract_of_message {g i : Bytes} {m : Message} (hg : c.startMark ∉ g) (hi : c.endMark ∉ i)
    (hu : unpack c (c.startMark :: (i ++ [c.endMark])) = .message m) (tail : Bytes) :
    extract c (g ++ c.startMark :: (i ++ c.endMark :: tail)) = ⟨some m, tail⟩ := by
  rw [extract_eq, cutAt_eq_some.2 ⟨rfl, hg⟩]
  simp only [cutAt_eq_some.2 ⟨rfl, hi⟩, hu]

/-- Case D (R134): the first candidate is no frame, and the search goes on behind its START. -/
theorem extract_of_malformed {g i : Bytes} {w : Malformed} (hg : c.startMark ∉ g) (hi : c.endMark ∉ i)
    (hu : unpack c (c.startMark :: (i ++ [c.endMark])) = .malformed w) (tail : Bytes) :
    extract c (g ++ c.startMark :: (i ++ c.endMark :: tail)) = extract c (i ++ c.endMark :: tail) := by
  rw [extract_eq, cutAt_eq_some.2 ⟨rfl, hg⟩]
  simp only [cutAt_eq_some.2 ⟨rfl, hi⟩, hu]

/-- Induction along EXTRACT: a relation between buffer and result holds if it holds in cases A, B and C and case D
carries it from the shorter buffer to the whole one. -/
theorem extract_cases_induct {P : Bytes → ExtractResult → Prop}
    (noStart : ∀ b, c.startMark ∉ b → P b ⟨none, b⟩)
    (noEnd : ∀ g r, P (g ++ c.startMark :: r) ⟨none, c.startMark :: r⟩)
    (message : ∀ g i tail m, unpack c (c.startMark :: (i ++ [c.endMark])) = .message m →
      P (g ++ c.startMark :: (i ++ c.endMark :: tail)) ⟨some m, tail⟩)
    (malformed : ∀ g r result, P r result → P (g ++ c.startMark :: r) result) (b : Bytes) :
    P b (extract c b) := by
  induction b using extract_induct c with
  | h b ih =>
    cases hs : cutAt c.startMark b with
    | none =>
      have hb := cutAt_eq_none.1 hs
      rw [extract_of_rxShape c (.inl hb)]
      exact noStart b hb
    | some p =>
      obtain ⟨g, r⟩ := p
      have hrest := ih g r hs
      obtain ⟨rfl, hg⟩ := cutAt_eq_some.1 hs
      cases he : cutAt c.endMark r with
      | none =>
        rw [extract_of_open hg (cutAt_eq_none.1 he)]
        exact noEnd g r
      | some q =>
        obtain ⟨i, tail⟩ := q
        obtain ⟨rfl, hi⟩ := cutAt_eq_some.1 he
        cases hu : unpack c (c.startMark :: (i ++ [c.endMark])) with
        | message m =>
          rw [extract_of_message hg hi hu]
          exact message g i tail m hu
        | malformed w =>
          rw [extract_of_malformed hg hi hu]
          exact malformed g _ _ hrest

/-! ### What EXTRACT leaves (R139, 43_ack_sequencer.md R162) -/

theorem extract_rest_suffix (b : Bytes) : (extract c b).rest <:+ b := by
  refine extract_cases_induct (P := fun b result => result.rest <:+ b) ?noStart ?noEnd ?message ?malformed b
  case noStart => exact fun b _ => List.suffix_rfl
  case noEnd => exact fun g r => List.suffix_append g _
  case message => exact fun g i tail m _ => ⟨g ++ c.startMark :: (i ++ [c.endMark]), by simp⟩
  case malformed => exact fun g r result h => h.trans ⟨g ++ [c.startMark], by simp⟩

/-- UNESCAPE makes nothing longer: a pair gives one byte, any other byte itself. -/
theorem length_unescape_le (c : Config) (x : Bytes) : (unescape c x).length ≤ x.length := by
  fun_induction unescape c x with
  | case1 => rfl
  | case2 b => rfl
  | case3 x rest o ho ih =>
    simp only [List.length_cons]
    omega
  | case4 x rest ho ih => simpa using ih
  | case5 b x rest hb ih => simpa using ih

/-- A frame has at least seven bytes between its markers: a header and a checksum (41_codec_frame.md R115). -/
theorem length_interior_of_message {i : Bytes} {m : Message}
    (h : unpack c (c.startMark :: (i ++ [c.endMark])) = .message m) : 7 ≤ i.length := by
  rw [unpack_interior] at h
  by_contra hshort
  have hu := length_unescape_le c i
  rw [unpackInner_of_short (by omega)] at h
  cases h

/-- The bytes of a frame, at least nine, are gone with its message. -/
theorem extract_rest_length_add_nine {b : Bytes} {m : Message} (h : (extract c b).msg = some m) :
    (extract c b).rest.length + 9 ≤ b.length := by
  refine extract_cases_induct (P := fun b result => ∀ m, result.msg = some m → result.rest.length + 9 ≤ b.length)
    ?noStart ?noEnd ?message ?malformed b m h
  case noStart => intro b _ m hm; cases hm
  case noEnd => intro g r m hm; cases hm
  case message =>
    intro g i tail _ hu _ _
    have hi := length_interior_of_message hu
    simp only [List.length_append, List.length_cons]
    omega
  case malformed =>
    intro g r result ih m hm
    have hr := ih m hm
    simp only [List.length_append, List.length_cons]
    omega

/-- EXTRACT of what it left when it found no message changes nothing (R139). -/
theorem extract_rest_of_none {b : Bytes} (h : (extract c b).msg = none) :
    extract c (extract c b).rest = extract c b := by
  rw [extract_of_rxShape c (extract_rest_rxShape c h), ← h]

/-- A frame of PACK is found behind a candidate that is no frame (R138 (c)). -/
theorem extract_frameBytes_after_malformed (h : c.Valid) (t q : Byte) {p x : Bytes} {w : Malformed}
    (hp : p.length ≤ maxPayload) (hstart : c.startMark ∉ x) (hend : c.endMark ∉ x)
    (hu : unpack c (c.startMark :: (x ++ [c.endMark])) = .malformed w) (tail : Bytes) :
    extract c (c.startMark :: (x ++ [c.endMark]) ++ frameBytes c t q p ++ tail) = ⟨some ⟨t, q, p⟩, tail⟩ := by
  obtain ⟨hne, -, -⟩ := reserved_ne h
  have hgarbage : c.startMark ∉ x ++ [c.endMark] := by simp [hstart, hne]
  calc extract c (c.startMark :: (x ++ [c.endMark]) ++ frameBytes c t q p ++ tail)
      = extract c ([] ++ c.startMark :: (x ++ c.endMark :: (frameBytes c t q p ++ tail))) := by simp
    _ = extract c (x ++ c.endMark :: (frameBytes c t q p ++ tail)) :=
        extract_of_malformed List.not_mem_nil hend hu _
    _ = extract c (x ++ [c.endMark] ++ frameBytes c t q p ++ tail) := by simp
    _ = ⟨some ⟨t, q, p⟩, tail⟩ := extract_frameBytes h t q hp hgarbage tail

end Sys2Proof.Codec

namespace Sys2Proof.Machine

open Codec

/-! ### EXTRACT gives back what the frame_codec computes -/

theorem exec_extract_eq (s : State) (b : Bytes) :
    exec (.extract b) s = .next { s with returned := s.returned ++ [.extracted (extract s.cfg b)] } := rfl

/-- What UNPACK returns is the verdict, the returned value being the last of the list. -/
theorem unpack_eq_of_exec_unpack {s : State} {raw : Bytes} {verdict : UnpackResult}
    (h : exec (.unpack raw) s = .next { s with returned := s.returned ++ [.unpacked verdict] }) :
    unpack s.cfg raw = verdict := by
  rw [exec_unpack_eq] at h
  have hreturned := congrArg State.returned (Host.Outcome.next.inj h)
  simpa using hreturned

/-- Settles O22: cases A and B. -/
theorem extractKeepsWhatIsNoFrameYet : Obligations.ExtractKeepsWhatIsNoFrameYet := by
  intro s
  refine ⟨fun b hb => ?_, fun g r hg hr => ?_⟩
  · rw [exec_extract_eq, extract_of_rxShape s.cfg (.inl hb)]
  · rw [exec_extract_eq, extract_of_open hg hr]

/-- Settles O23: case C. -/
theorem extractReturnsTheFirstFrame : Obligations.ExtractReturnsTheFirstFrame := by
  intro s g i tail m hg hi hexec
  rw [exec_extract_eq, extract_of_message hg hi (unpack_eq_of_exec_unpack hexec)]

/-- Settles O24: case D. -/
theorem extractResynchronises : Obligations.ExtractResynchronises := by
  intro s g i tail w hg hi hexec
  refine ⟨extract s.cfg (i ++ s.cfg.endMark :: tail), ?_, exec_extract_eq s _⟩
  rw [exec_extract_eq, extract_of_malformed hg hi (unpack_eq_of_exec_unpack hexec)]

/-- Settles O25: a frame of PACK is the first candidate behind bytes without START, an open START is case B, and a
corrupted frame is skipped by case D. -/
theorem extractFindsPackedFrames : Obligations.ExtractFindsPackedFrames := by
  intro s t q p f hc hp hf
  obtain rfl := eq_frameBytes_of_exec_pack hp hf
  refine ⟨fun g tail hg => ?_, fun g r hg hr => ?_, fun x tail w hstart hend hexec => ?_⟩
  · rw [exec_extract_eq, extract_frameBytes hc t q hp hg]
  · rw [exec_extract_eq, extract_of_open hg hr]
  · rw [exec_extract_eq,
      extract_frameBytes_after_malformed hc t q hp hstart hend (unpack_eq_of_exec_unpack hexec)]

/-- Settles O26: the shape of the rest makes EXTRACT give it back, and a frame has nine bytes or more. -/
theorem extractRestShape : Obligations.ExtractRestShape := by
  intro s b
  refine ⟨extract s.cfg b, exec_extract_eq s b, extract_rest_suffix b, fun hnone => ⟨?_, ?_⟩, fun m hm => ?_⟩
  · exact extract_rest_rxShape s.cfg hnone
  · rw [exec_extract_eq, extract_rest_of_none hnone]
  · exact extract_rest_length_add_nine hm

end Sys2Proof.Machine
end

