-- ==== Sys2Proof/Proofs/AckSequencer.lean ====
section
/-! PROOF. The ack_sequencer (43_ack_sequencer.md): SEND_DATA, what FRAME_ACK and FRAME_DATA do with a message and RX_BYTES
with all of them, the end of a request, the account of the slot, and runs over a queue of inputs. -/

namespace Sys2Proof.Codec

/-! ### ACKSEQ, PENDSET and the match (R165, R167, R168) -/

theorem ackSeq_eq (q : Byte) : ackSeq q = if q = 0 then 1 else 0 := by simp only [ackSeq, ite_self]

theorem mem_pendSet {op v : Byte} : v ∈ pendSet op ↔ v.toNat = op.toNat ∨ v.toNat = op.toNat + 1 := by
  have hv : v.toNat < 2 ^ 8 := v.isLt
  unfold pendSet
  split_ifs with hop
  · simp [← BitVec.toNat_inj, Nat.mod_eq_of_lt hop]
  · have hwrap : v.toNat ≠ op.toNat + 1 := by omega
    simp [← BitVec.toNat_inj, hwrap]

theorem nodup_pendSet (op : Byte) : (pendSet op).Nodup := by
  unfold pendSet
  split_ifs with hop
  · simp [← BitVec.toNat_inj, Nat.mod_eq_of_lt hop]
  · exact List.nodup_singleton op

/-- A match is a pending request and a first payload byte in PENDSET of its opcode; an empty payload has none. -/
theorem matchesPending_iff {valid : Bool} {op : Byte} {m : Message} : matchesPending valid op m = true ↔
    valid = true ∧ ∃ v rest, m.payload = v :: rest ∧ (v.toNat = op.toNat ∨ v.toNat = op.toNat + 1) := by
  unfold matchesPending
  split
  next hp => simp [hp]
  next v rest hp => simp [hp, mem_pendSet]

end Sys2Proof.Codec

namespace Sys2Proof.Machine

open Codec Safety

variable {s t : State} {i : Instr}

/-- Settles O38: ACKSEQ gives back `ackSeq`. -/
theorem ackSeqIsTheComplement : Obligations.AckSeqIsTheComplement := by
  refine fun s => ⟨rfl, rfl, fun q hq => ?_⟩
  have hne : q ≠ 0 := by rintro rfl; simp at hq
  have hzero : ackSeq q = 0 := by rw [ackSeq_eq, if_neg hne]
  rw [← hzero]
  rfl

/-- Settles O39: PENDSET gives back `pendSet`. -/
theorem pendSetMembers : Obligations.PendSetMembers := fun _ op =>
  ⟨pendSet op, rfl, nodup_pendSet op, fun _ => mem_pendSet⟩

/-! ### SEND_DATA (R150 to R153) -/

theorem exec_sendData_of_refusal {p : Bytes} {why : Refused} (h : sendRefusal s p = some why) :
    exec (.sendData p) s = .next { s with trace := s.trace ++ [.refused why] } := by
  simp only [exec, execSendData, h]
  rfl

/-- Settles O27: each clause is one of the tests of R151, the earlier ones being passed. -/
theorem sendDataRefusalsInOrder : Obligations.SendDataRefusalsInOrder := by
  intro s p
  refine ⟨fun hready => ?_, fun hready hpending => ?_, fun hready hfree hempty => ?_, fun hready hfree hlong => ?_⟩
  · exact exec_sendData_of_refusal (if_pos hready)
  · exact exec_sendData_of_refusal (by simp [sendRefusal, hready, hpending])
  · exact exec_sendData_of_refusal (by simp [sendRefusal, hready, hfree, hempty])
  · have hne : p ≠ [] := by rintro rfl; simp at hlong
    exact exec_sendData_of_refusal (by simp [sendRefusal, hready, hfree, hne, hlong])

/-- The whole effect of an accepted SEND_DATA (R152). -/
theorem sendAccepted_cons (s : State) (op : Byte) (p : Bytes) : sendAccepted s (op :: p) = { s with
    block := { s.block with pendValid := true, pendOp := op }
    trace := s.trace ++ [.txWrite (frameBytes s.cfg s.cfg.dtData s.block.sendSeq (op :: p)), .accepted] } := by
  rw [List.append_cons]
  rfl

/-- Settles O28: an enabled SEND_DATA is accepted. -/
theorem sendDataWritesOneFrameAndTakesTheSlot : Obligations.SendDataWritesOneFrameAndTakesTheSlot := by
  intro s op p hready hfree hp
  have henabled : sendRefusal s (op :: p) = none :=
    sendRefusal_eq_none.2 ⟨hready, hfree, List.cons_ne_nil op p, hp⟩
  exact ⟨frameBytes s.cfg s.cfg.dtData s.block.sendSeq (op :: p), exec_pack_eq _ _ hp,
    by rw [exec_sendData_of_enabled henabled, sendAccepted_cons]⟩

/-! ### FRAME_ACK and FRAME_DATA (R163 to R171) -/

/-- Settles O34: FRAME_ACK is one write. -/
theorem frameAckOnlyAdoptsTheSeq : Obligations.FrameAckOnlyAdoptsTheSeq := fun _ _ _ => rfl

/-- Settles O37: the test of the operand fails. -/
theorem frameDataStopsOnAnAckMessage : Obligations.FrameDataStopsOnAnAckMessage := fun _ _ hack => if_pos hack

/-- What FRAME_DATA emits behind its ACK (R169). -/
def delivery (m : Message) (hasMatched : Bool) : List Emission :=
  if hasMatched then [.resolve (some m), .deliver m true] else [.deliver m false]

/-- What FRAME_DATA emits for a message: the ACK first (R166). -/
def answer (c : Config) (m : Message) (hasMatched : Bool) : List Emission :=
  .txWrite (ackFor c m) :: delivery m hasMatched

theorem ackFor_eq (c : Config) (m : Message) : ackFor c m = frameBytes c c.dtAck (if m.seq = 0 then 1 else 0) [] := by
  rw [ackFor, ackSeq_eq]

theorem delivery_countP_isTxWrite (m : Message) (b : Bool) : (delivery m b).countP isTxWrite = 0 := by cases b <;> rfl

theorem delivery_countP_isDeliver (m : Message) (b : Bool) : (delivery m b).countP isDeliver = 1 := by cases b <;> rfl

theorem answer_countP_isAccepted (c : Config) (m : Message) (b : Bool) : (answer c m b).countP isAccepted = 0 := by
  cases b <;> rfl

/-- The whole effect of FRAME_DATA on a match. -/
theorem answerAndDeliver_of_match {m : Message} (h : matchesPending s.block.pendValid s.block.pendOp m = true) :
    answerAndDeliver s m = { s with
      block := { s.block with pendValid := false }
      trace := s.trace ++ answer s.cfg m true } := by
  rcases answerAndDeliver_cases s m with ⟨-, he⟩ | ⟨hno, -⟩
  · rw [he]; simp [State.emit, State.setPendValid, answer, delivery]
  · simp [hno] at h

/-- The whole effect of FRAME_DATA without a match. -/
theorem answerAndDeliver_of_no_match {m : Message} (h : matchesPending s.block.pendValid s.block.pendOp m = false) :
    answerAndDeliver s m = { s with trace := s.trace ++ answer s.cfg m false } := by
  rcases answerAndDeliver_cases s m with ⟨hyes, -⟩ | ⟨-, he⟩
  · simp [hyes] at h
  · rw [he]; simp [State.emit, answer, delivery]

theorem answerAndDeliver_trace (s : State) (m : Message) : (answerAndDeliver s m).trace =
    s.trace ++ answer s.cfg m (matchesPending s.block.pendValid s.block.pendOp m) := by
  cases h : matchesPending s.block.pendValid s.block.pendOp m
  · rw [answerAndDeliver_of_no_match h]
  · rw [answerAndDeliver_of_match h]

/-- FRAME_DATA neither reads nor writes `send_seq` (R166). -/
theorem answerAndDeliver_setSendSeq (s : State) (v : Byte) (m : Message) :
    answerAndDeliver (s.setSendSeq v) m = (answerAndDeliver s m).setSendSeq v := by
  cases h : matchesPending s.block.pendValid s.block.pendOp m
  · rw [answerAndDeliver_of_no_match h, answerAndDeliver_of_no_match (by simpa using h)]; rfl
  · rw [answerAndDeliver_of_match h, answerAndDeliver_of_match (by simpa using h)]; rfl

/-- Settles O35: what follows the ACK is a delivery, and another `send_seq` is carried through. -/
theorem frameDataWritesOneAckFirst : Obligations.FrameDataWritesOneAckFirst := by
  intro s m hm
  refine ⟨ackSeq m.seq, ackFor s.cfg m, answerAndDeliver s m, _, rfl, exec_pack_eq _ _ (Nat.zero_le _),
    execFrameData_eq hm, answerAndDeliver_trace s m, delivery_countP_isTxWrite m _, fun v => ?_⟩
  have hseq := answerAndDeliver_setSendSeq s v m
  exact (execFrameData_eq (s := s.setSendSeq v) hm).trans (congrArg _ hseq)

/-- Settles O36: the premise of the first clause is the condition of the match. -/
theorem frameDataMatchesAndDelivers : Obligations.FrameDataMatchesAndDelivers := by
  intro s m hm
  dsimp only
  rw [← ackFor_eq, execFrameData_eq hm, ← matchesPending_iff]
  refine ⟨fun h => ?_, fun h => ?_⟩
  · rw [answerAndDeliver_of_match h]; rfl
  · rw [answerAndDeliver_of_no_match (Bool.eq_false_iff.2 h)]; rfl

/-! ### RX_BYTES (R160 to R162) -/

theorem exec_rxBytes_eq (s : State) (chunk : Bytes) : exec (.rxBytes chunk) s = .next (receive s chunk) := rfl

/-- FRAME_ACK or FRAME_DATA, chosen by the type of the message, is its handling (R161). -/
theorem exec_handleMessage (s : State) (m : Message) :
    exec (if m.dataType = s.cfg.dtAck then .frameAck m.seq m.payload else .frameData m) s =
      .next (handleMessage s m) := by
  by_cases h : m.dataType = s.cfg.dtAck
  · rw [if_pos h, handleMessage_ack h]; rfl
  · rw [if_neg h, handleMessage_data h, execFrameData_eq h]

/-- Settles O30: the two equations of `receive`, and that it does not see the level of `ready`. -/
theorem rxBytesHandlesMessagesOneByOne : Obligations.RxBytesHandlesMessagesOneByOne := by
  intro s chunk
  refine ⟨fun hnone => ?_, fun m hsome => ?_, fun level t ht => ?_⟩
  · rw [exec_rxBytes_eq, receive_of_none hnone]; rfl
  · exact ⟨_, _, exec_handleMessage (s.setRxBuf (extract s.cfg (s.block.rxBuf ++ chunk)).rest) m, exec_rxBytes_eq _ [],
      congrArg Host.Outcome.next (receive_of_some hsome)⟩
  · exact (readyIsReadBySendDataOnly (.rxBytes chunk) s level (by simp)).1 t ht

/-- The messages that are no ACK: those that FRAME_DATA handles (R161). -/
def dataMessages (c : Config) (msgs : List Message) : List Message :=
  msgs.filter fun m => decide (m.dataType ≠ c.dtAck)

theorem dataMessages_cons_ack {c : Config} {m : Message} (h : m.dataType = c.dtAck) (msgs : List Message) :
    dataMessages c (m :: msgs) = dataMessages c msgs := List.filter_cons_of_neg (by simpa using h)

theorem dataMessages_cons_data {c : Config} {m : Message} (h : m.dataType ≠ c.dtAck) (msgs : List Message) :
    dataMessages c (m :: msgs) = m :: dataMessages c msgs := List.filter_cons_of_pos (by simpa using h)

/-- These emissions are the answer to the message, to one that matched or to one that did not. -/
def IsAnswerTo (c : Config) (m : Message) (block : List Emission) : Prop := ∃ hasMatched, block = answer c m hasMatched

/-- RX_BYTES answers the messages that are no ACK one after the other, and emits nothing else. -/
theorem receive_answers (s : State) (chunk : Bytes) : ∃ blocks : List (List Emission),
    (receive s chunk).trace = s.trace ++ blocks.flatten ∧
    List.Forall₂ (IsAnswerTo s.cfg) (dataMessages s.cfg (messagesIn s.cfg (s.block.rxBuf ++ chunk))) blocks := by
  induction s, chunk using receive_induct with
  | none s chunk h =>
    rw [receive_of_none h, messagesIn_of_none _ h]
    exact ⟨[], by simp, .nil⟩
  | some s chunk m h ih =>
    rw [receive_of_some h, messagesIn_of_some _ h]
    obtain ⟨blocks, htrace, hblocks⟩ := ih
    simp only [handleMessage_cfg, handleMessage_rxBuf, State.setRxBuf_cfg, State.setRxBuf_rxBuf, List.append_nil]
      at hblocks
    rw [htrace, handleMessage_setRxBuf, State.setRxBuf_trace]
    by_cases hm : m.dataType = s.cfg.dtAck
    · rw [handleMessage_ack hm, dataMessages_cons_ack hm]
      exact ⟨blocks, rfl, hblocks⟩
    · rw [handleMessage_data hm, dataMessages_cons_data hm, answerAndDeliver_trace]
      exact ⟨_ :: blocks, by rw [List.flatten_cons, List.append_assoc], .cons ⟨_, rfl⟩ hblocks⟩

/-- Emissions with one frame written for each delivery, and no delivery ahead of its frame (20_memory.md R51). -/
structure AcksDeliveries (l : List Emission) : Prop where
  balanced : l.countP isTxWrite = l.countP isDeliver
  ahead    : ∀ pre, pre <+: l → pre.countP isDeliver ≤ pre.countP isTxWrite

theorem acksDeliveries_nil : AcksDeliveries [] := ⟨rfl, fun pre h => by simp [List.prefix_nil.1 h]⟩

theorem AcksDeliveries.append {a b : List Emission} (ha : AcksDeliveries a) (hb : AcksDeliveries b) :
    AcksDeliveries (a ++ b) := by
  refine ⟨by rw [List.countP_append, List.countP_append, ha.balanced, hb.balanced], ?_⟩
  rintro pre ⟨tail, hpre⟩
  rcases List.append_eq_append_iff.1 hpre with ⟨a', rfl, -⟩ | ⟨b', rfl, rfl⟩
  · exact ha.ahead pre (List.prefix_append pre a')
  · have hb' := hb.ahead b' (List.prefix_append b' tail)
    rw [List.countP_append, List.countP_append, ha.balanced]
    omega

theorem acksDeliveries_answer (c : Config) (m : Message) (b : Bool) : AcksDeliveries (answer c m b) := by
  have htx := delivery_countP_isTxWrite m b
  have hdeliver := delivery_countP_isDeliver m b
  refine ⟨by simp [answer, List.countP_cons, htx, hdeliver, isTxWrite, isDeliver], fun pre hpre => ?_⟩
  rcases List.prefix_cons_iff.1 hpre with rfl | ⟨tail, rfl, htail⟩
  · rfl
  · have hle : tail.countP isDeliver ≤ (delivery m b).countP isDeliver := htail.sublist.countP_le
    rw [List.countP_cons_of_neg (by simp [isDeliver]), List.countP_cons_of_pos (by simp [isTxWrite])]
    omega

theorem acksDeliveries_flatten {c : Config} {msgs : List Message} {blocks : List (List Emission)}
    (h : List.Forall₂ (IsAnswerTo c) msgs blocks) : AcksDeliveries blocks.flatten := by
  induction h with
  | nil => exact acksDeliveries_nil
  | cons hblock _ ih =>
    obtain ⟨b, rfl⟩ := hblock
    exact (acksDeliveries_answer c _ b).append ih

theorem answerAndDeliver_countP_isAccepted (s : State) (m : Message) :
    (answerAndDeliver s m).trace.countP isAccepted = s.trace.countP isAccepted := by
  rw [answerAndDeliver_trace, List.countP_append, answer_countP_isAccepted, Nat.add_zero]

/-- RX_BYTES accepts no request. -/
theorem receive_countP_isAccepted (s : State) (chunk : Bytes) :
    (receive s chunk).trace.countP isAccepted = s.trace.countP isAccepted := by
  refine receive_preserves (P := fun t => t.trace.countP isAccepted = s.trace.countP isAccepted) (fun _ _ h => h)
    (fun t m h => ?_) s chunk rfl
  by_cases hm : m.dataType = t.cfg.dtAck
  · rw [handleMessage_ack hm]; exact h
  · rw [handleMessage_data hm, answerAndDeliver_countP_isAccepted, h]

/-- Settles O33: the blocks are the answers; no request is accepted, and the Resolves due stay the same. -/
theorem rxBytesAcknowledgesEveryDelivery : Obligations.RxBytesAcknowledgesEveryDelivery := by
  intro s chunk
  obtain ⟨blocks, htrace, hblocks⟩ := receive_answers s chunk
  have hacks := acksDeliveries_flatten hblocks
  have haccepted := receive_countP_isAccepted s chunk
  have hdue := resolvesDue_receive s chunk
  unfold resolvesDue at hdue
  rw [htrace, List.countP_append] at haccepted hdue
  refine ⟨receive s chunk, blocks.flatten, blocks, rfl, htrace, rfl, hblocks.imp fun m block => ?_, hacks.balanced,
    hacks.ahead, by omega, by omega⟩
  rintro ⟨b, rfl⟩
  dsimp only
  rw [← ackFor_eq]
  cases b with
  | true => exact .inl rfl
  | false => exact .inr rfl

/-! ### TIMEOUT, CLEAR and CLOSED (R172 to R177) -/

@[simp] theorem giveUpPending_pendValid (s : State) : (giveUpPending s).block.pendValid = false := by
  rcases giveUpPending_cases s with ⟨-, h⟩ | ⟨hfree, h⟩
  · rw [h]; rfl
  · rw [h, hfree]

theorem giveUpPending_of_pending (h : s.block.pendValid = true) : giveUpPending s = { s with
    block := { s.block with pendValid := false }
    trace := s.trace ++ [.resolve none] } := by
  simp only [giveUpPending, h, if_true]
  rfl

/-- Settles O40: TIMEOUT gives up a pending request. -/
theorem timeoutEndsThePendingRequest : Obligations.TimeoutEndsThePendingRequest := fun _ =>
  ⟨fun hpending => congrArg Host.Outcome.next (giveUpPending_of_pending hpending),
    fun hfree => congrArg Host.Outcome.next (giveUpPending_of_free hfree)⟩

/-- Settles O42: CLEAR gives up a pending request and writes the whole block. -/
theorem clearReturnsTheBlockToReset : Obligations.ClearReturnsTheBlockToReset := by
  intro s
  refine ⟨freePendOp s.freeIdx, ?_⟩
  cases h : s.block.pendValid with
  | true => simp only [exec, execClear, giveUpPending_of_pending h]; rfl
  | false =>
    simp [exec, execClear, giveUpPending_of_free h, h, State.setRxBuf, State.setSendSeq, State.forgetPendOp,
      State.setPendOp]

/-- Settles O43: CLOSED is one write, outside the block. -/
theorem closedChangesNoBlockState : Obligations.ClosedChangesNoBlockState := fun _ => rfl

/-- Settles O41: TIMEOUT leaves the slot free and keeps `ready`, the parameters and `send_seq`. -/
theorem sendIsAcceptedAfterTimeout : Obligations.SendIsAcceptedAfterTimeout := by
  intro s op p hready hp
  have hsame := SameSurroundings.giveUpPending s
  have henabled : sendRefusal (giveUpPending s) (op :: p) = none :=
    sendRefusal_eq_none.2 ⟨hsame.ready.trans hready, giveUpPending_pendValid s, List.cons_ne_nil op p, hp⟩
  refine ⟨giveUpPending s, _, rfl, exec_sendData_of_enabled henabled, rfl, rfl, ?_⟩
  rw [sendAccepted_cons, hsame.cfg, giveUpPending_sendSeq]

/-! ### The account of the slot (R154) -/

theorem giveUpPending_countP_isAccepted (s : State) :
    (giveUpPending s).trace.countP isAccepted = s.trace.countP isAccepted := by
  rcases giveUpPending_cases s with ⟨-, h⟩ | ⟨-, h⟩ <;> simp [h, isAccepted]

/-- What accepts no request and leaves the Resolves due as they are keeps the account. -/
theorem slotAccounted_congr (haccepted : t.trace.countP isAccepted = s.trace.countP isAccepted)
    (hdue : resolvesDue t = resolvesDue s) : SlotAccounted t ↔ SlotAccounted s :=
  Eq.congr haccepted hdue

/-- SEND_DATA that is accepted has one more request accepted and one more Resolve due. -/
theorem sendAccepted_keeps_slotAccounted (hfree : s.block.pendValid = false) (h : SlotAccounted s) (op : Byte)
    (p : Bytes) : SlotAccounted (sendAccepted s (op :: p)) := by
  rw [sendAccepted_cons]
  simpa [SlotAccounted, hfree, isAccepted, isResolve, List.countP_cons] using h

theorem exec_keeps_slotAccounted (hexec : exec i s = .next t) (h : SlotAccounted s) : SlotAccounted t := by
  rcases exec_kind_cases hexec with ⟨-, r, rfl⟩ | ⟨-, chunk, rfl⟩ | ⟨p, w, -, rfl⟩ | ⟨p, -, hp, rfl⟩ | ⟨q, p, -, rfl⟩ |
    ⟨m, -, rfl⟩ | ⟨-, rfl⟩ | ⟨-, rfl⟩ | ⟨-, rfl⟩
  · exact h
  · exact (slotAccounted_congr (receive_countP_isAccepted s chunk) (resolvesDue_receive s chunk)).2 h
  · simpa [SlotAccounted, isAccepted, isResolve] using h
  · obtain ⟨-, hfree, hne, -⟩ := sendRefusal_eq_none.1 hp
    obtain ⟨op, rest, rfl⟩ := List.exists_cons_of_ne_nil hne
    exact sendAccepted_keeps_slotAccounted hfree h op rest
  · exact h
  · exact (slotAccounted_congr (answerAndDeliver_countP_isAccepted s m) (resolvesDue_answerAndDeliver s m)).2 h
  · exact (slotAccounted_congr (giveUpPending_countP_isAccepted s) (resolvesDue_giveUpPending s)).2 h
  · exact (slotAccounted_congr (s := s) (giveUpPending_countP_isAccepted s) (resolvesDue_giveUpPending s)).2 h
  · exact h

/-- Settles O55: taking an input off the queue touches neither trace nor slot, and its instruction keeps the account. -/
theorem everyStepKeepsTheSlotAccount : Obligations.EveryStepKeepsTheSlotAccount := by
  intro s t h hstep
  rcases step_cases hstep with ⟨-, rfl⟩ | ⟨level, rest, -, rfl⟩ | ⟨x, r, rest, i, -, -, hexec⟩
  · exact h
  · exact h
  · exact exec_keeps_slotAccounted hexec h

/-! ### Runs over a queue of inputs -/

theorem step_of_ready {level : Bool} {rest : List Input} (hin : s.inbox = .ready level :: rest) :
    step s = .next ({ s with inbox := rest }.setReady level) := by
  simp only [step, hin]

/-- A well-formed instruction has a next state from every state (60_exceptions.md R190, R197). -/
theorem exec_next_of_wellFormed (h : wellFormed s.cfg i = true) : ∃ t, exec i s = .next t := by
  cases i
  case pack ty q p => cases hp : pack s.cfg ty q p <;> exact ⟨_, by simp only [exec, execPack, hp]; rfl⟩
  case sendData p => rcases execSendData_cases p s with ⟨w, -, he⟩ | ⟨-, he⟩ <;> exact ⟨_, he⟩
  case frameData m => exact ⟨_, execFrameData_eq (of_decide_eq_true h)⟩
  case wireFrameData q p => exact ⟨_, receiveFrame_eq (of_decide_eq_true h)⟩
  case wireFrameAck q p => exact ⟨_, receiveFrame_eq (of_decide_eq_true h)⟩
  all_goals exact ⟨_, rfl⟩

theorem core_run_succ (h : step s = .next t) (n : Nat) : Sys2Proof.core.run (n + 1) s = Sys2Proof.core.run n t := by
  have hcore : Sys2Proof.core.step s = .next t := h
  simp only [Host.Core.run, hcore]

/-- A predicate that every allowed input keeps, the step being answered, is kept by the run over a queue of them; the
run goes on from where it stands then. -/
theorem run_of_inputs {P : State → Prop} {allowed : Input → Prop}
    (hstep : ∀ s x rest, P s → s.inbox = x :: rest → allowed x → ∃ t, step s = .next t ∧ t.inbox = rest ∧ P t)
    (inputs later : List Input) (s : State) (hP : P s) (hin : s.inbox = inputs ++ later)
    (hall : ∀ x ∈ inputs, allowed x) :
    ∃ t, (∀ k, Sys2Proof.core.run (inputs.length + k) s = Sys2Proof.core.run k t) ∧ t.inbox = later ∧ P t := by
  induction inputs generalizing s with
  | nil => exact ⟨s, fun k => by rw [List.length_nil, Nat.zero_add], hin, hP⟩
  | cons x xs ih =>
    obtain ⟨hx, hxs⟩ := List.forall_mem_cons.1 hall
    obtain ⟨u, hu, huin, hPu⟩ := hstep s x (xs ++ later) hP hin hx
    obtain ⟨t, ht, htin, hPt⟩ := ih u hPu huin hxs
    refine ⟨t, fun k => ?_, htin, hPt⟩
    rw [List.length_cons, Nat.add_right_comm, core_run_succ hu, ht]

/-! ### From CLOSED until CLEAR (R177) -/

/-- Since `s` the input `ready` is false, and neither the buffer nor `send_seq` nor the TX stream has changed. -/
structure QuietSince (s t : State) : Prop where
  cfg     : t.cfg = s.cfg
  ready   : t.ready = false
  rxBuf   : t.block.rxBuf = s.block.rxBuf
  sendSeq : t.block.sendSeq = s.block.sendSeq
  tx      : t.trace.countP isTxWrite = s.trace.countP isTxWrite

theorem QuietSince.trans {u : State} (h : QuietSince s t) (h' : QuietSince t u) : QuietSince s u :=
  ⟨h'.cfg.trans h.cfg, h'.ready, h'.rxBuf.trans h.rxBuf, h'.sendSeq.trans h.sendSeq, h'.tx.trans h.tx⟩

/-- An operation of the environment that brings no bytes is well-formed. -/
theorem wellFormed_of_issuedFromOutside (c : Config) (hout : issuedFromOutside i = true)
    (hquiet : receivesBytes i = false) : wellFormed c i = true := by
  cases i
  case frameData => cases hout
  case wireFrameData => cases hquiet
  case wireFrameAck => cases hquiet
  all_goals rfl

/-- With `ready` false, an operation of the environment other than CLEAR that brings no bytes is quiet: SEND_DATA is
refused, and the others write neither the buffer nor `send_seq` nor the TX stream. -/
theorem exec_quiet (hready : s.ready = false) (hout : issuedFromOutside i = true) (hquiet : receivesBytes i = false)
    (hclear : i ≠ .clear) (h : exec i s = .next t) : QuietSince s t := by
  rcases exec_kind_cases h with ⟨-, r, rfl⟩ | ⟨hi, -⟩ | ⟨p, w, -, rfl⟩ | ⟨p, -, hp, -⟩ | ⟨q, p, rfl, -⟩ | ⟨m, rfl, -⟩ |
    ⟨-, rfl⟩ | ⟨rfl, -⟩ | ⟨-, rfl⟩
  · exact ⟨rfl, hready, rfl, rfl, rfl⟩
  · simp [hquiet] at hi
  · exact ⟨rfl, hready, rfl, rfl, by simp [isTxWrite]⟩
  · simp [sendRefusal, hready] at hp
  · cases hout
  · cases hout
  · have hsame := SameSurroundings.giveUpPending s
    exact ⟨hsame.cfg, hsame.ready.trans hready, giveUpPending_rxBuf s, giveUpPending_sendSeq s,
      giveUpPending_countP_isTxWrite s⟩
  · exact absurd rfl hclear
  · exact ⟨rfl, rfl, rfl, rfl, rfl⟩

/-- What a record may ask for in that time. -/
theorem closedPeriodInput_issue {c : Config} {r : Record} (h : closedPeriodInput c (.issue r) = true) :
    ∃ i, issuedInstr c r = .ok i ∧ receivesBytes i = false ∧ i ≠ .clear := by
  cases hi : issuedInstr c r with
  | ok i => exact ⟨i, rfl, by simpa [closedPeriodInput, hi] using h⟩
  | error why => simp [closedPeriodInput, hi] at h

theorem step_of_closedPeriodInput {x : Input} {rest : List Input} (hready : s.ready = false)
    (hin : s.inbox = x :: rest) (hx : closedPeriodInput s.cfg x = true) :
    ∃ t, step s = .next t ∧ t.inbox = rest ∧ QuietSince s t := by
  cases x with
  | ready level =>
    obtain rfl : level = false := by simpa [closedPeriodInput] using hx
    exact ⟨_, step_of_ready hin, rfl, rfl, rfl, rfl, rfl, rfl⟩
  | issue r =>
    obtain ⟨i, hi, hquiet, hclear⟩ := closedPeriodInput_issue hx
    obtain ⟨-, hout⟩ := issuedInstr_eq_ok.1 hi
    obtain ⟨t, ht⟩ := exec_next_of_wellFormed (s := { s with inbox := rest })
      (wellFormed_of_issuedFromOutside s.cfg hout hquiet)
    obtain ⟨-, htin, -⟩ := everyInstructionKeepsTheSurroundings i _ t ht
    have hsince := exec_quiet (s := { s with inbox := rest }) hready hout hquiet hclear ht
    exact ⟨t, (step_of_issuedInstr_ok hin hi).trans ht, htin, hsince.cfg, hsince.ready, hsince.rxBuf, hsince.sendSeq,
      hsince.tx⟩
  | inner r => cases hx

/-- Settles O56: each input allowed in that time is handled and is quiet. -/
theorem closedPeriodKeepsBufferAndSeq : Obligations.ClosedPeriodKeepsBufferAndSeq := by
  intro s inputs later hready hin hall
  obtain ⟨t, hrun, htin, hsince⟩ := run_of_inputs (P := QuietSince s) (fun u x rest hu huin hx =>
      have ⟨t, hstep, htin, ht⟩ := step_of_closedPeriodInput hu.ready huin (hu.cfg ▸ hx)
      ⟨t, hstep, htin, hu.trans ht⟩)
    inputs later s ⟨rfl, hready, rfl, rfl, rfl⟩ hin hall
  exact ⟨t, hrun 0, htin, hsince.ready, hsince.rxBuf, hsince.sendSeq, hsince.tx⟩

/-! ### A pending request and the next TIMEOUT (R154, R174) -/

/-- What a record asks for is well-formed (00_scope.md R6). -/
theorem wellFormed_of_readRecord {c : Config} {r : Record} (hc : c.Valid) (h : readRecord c r = .ok i) :
    wellFormed c i = true := by
  rcases readRecord_cases h with hdec | ⟨-, rfl⟩
  · exact (encodeOfDecodeIsTheRecord c r i hc hdec).2
  · rfl

/-- Only an accepted SEND_DATA changes the Resolves due, and it adds one. -/
theorem exec_resolvesDue_le (h : exec i s = .next t) : resolvesDue s ≤ resolvesDue t := by
  rcases exec_slot_cases h with ⟨op, p, -, hfree, rfl⟩ | ⟨hdue, -⟩
  · simp [sendAccepted_cons, resolvesDue, hfree, isResolve]
  · exact hdue.ge

/-- The instruction of an input that the step does not refuse to read; a level of `ready` has none. -/
theorem isTaken_cases {x : Input} {rest : List Input} (hin : s.inbox = x :: rest) (h : isTaken s.cfg x = true) :
    (∃ level, x = .ready level) ∨
    ∃ r i, readRecord s.cfg r = .ok i ∧ step s = exec i { s with inbox := rest } := by
  cases x with
  | ready level => exact .inl ⟨level, rfl⟩
  | issue r =>
    cases hi : issuedInstr s.cfg r with
    | ok i => exact .inr ⟨r, i, (issuedInstr_eq_ok.1 hi).1, step_of_issuedInstr_ok hin hi⟩
    | error why => simp [isTaken, hi, Except.isOk, Except.toBool] at h
  | inner r =>
    cases hi : innerInstr s.cfg r with
    | ok i => exact .inr ⟨r, i, innerInstr_eq_ok.1 hi, step_of_innerInstr_ok hin hi⟩
    | error why => simp [isTaken, hi, Except.isOk, Except.toBool] at h

/-- An input that is read is handled, and takes back no Resolve that is due. -/
theorem step_of_isTaken {x : Input} {rest : List Input} (hc : s.cfg.Valid) (hin : s.inbox = x :: rest)
    (hx : isTaken s.cfg x = true) :
    ∃ t, step s = .next t ∧ t.inbox = rest ∧ t.cfg = s.cfg ∧ resolvesDue s ≤ resolvesDue t := by
  rcases isTaken_cases hin hx with ⟨level, rfl⟩ | ⟨r, i, hi, hstep⟩
  · exact ⟨_, step_of_ready hin, rfl, rfl, le_rfl⟩
  · obtain ⟨t, ht⟩ := exec_next_of_wellFormed (s := { s with inbox := rest }) (wellFormed_of_readRecord hc hi)
    obtain ⟨htcfg, htin, -⟩ := everyInstructionKeepsTheSurroundings i _ t ht
    exact ⟨t, hstep.trans ht, htin, htcfg, exec_resolvesDue_le (s := { s with inbox := rest }) ht⟩

/-- TIMEOUT handed over is executed. -/
theorem step_of_timeout {rest : List Input} (hin : s.inbox = .issue (encode s.cfg .timeout) :: rest) :
    step s = .next (giveUpPending { s with inbox := rest }) :=
  step_of_issuedInstr_ok hin (issuedInstr_eq_ok.2 ⟨readRecord_of_decode rfl, rfl⟩)

/-- Once the slot is free, no Resolve is still to come. -/
theorem countP_isResolve_of_free (h : s.block.pendValid = false) : s.trace.countP isResolve = resolvesDue s := by
  simp [resolvesDue, h]

/-- Settles O57: the Resolve of the pending request stays due over the inputs, and TIMEOUT leaves none to come. -/
theorem pendingRequestEndsByTheTimeout : Obligations.PendingRequestEndsByTheTimeout := by
  intro s inputs later hpending hin hall hc
  obtain ⟨t, hrun, htin, htcfg, hdue⟩ := run_of_inputs
    (P := fun t => t.cfg = s.cfg ∧ resolvesDue s ≤ resolvesDue t) (fun u x rest ⟨hcfg, hle⟩ huin hx =>
      have ⟨t, hstep, htin, htcfg, hdue⟩ := step_of_isTaken (hcfg ▸ hc) huin (hcfg ▸ hx)
      ⟨t, hstep, htin, htcfg.trans hcfg, hle.trans hdue⟩)
    inputs _ s ⟨rfl, le_rfl⟩ hin hall
  have hstep := step_of_timeout (s := t) (rest := later) (by rw [htin, htcfg])
  refine ⟨giveUpPending { t with inbox := later }, ?_, (SameSurroundings.giveUpPending { t with inbox := later }).inbox,
    ?_⟩
  · rw [hrun, core_run_succ hstep]; rfl
  · rw [countP_isResolve_of_free (giveUpPending_pendValid _), resolvesDue_giveUpPending]
    calc s.trace.countP isResolve < resolvesDue s := by simp [resolvesDue, hpending]
      _ ≤ resolvesDue t := hdue

end Sys2Proof.Machine
end

