-- ==== Sys2Proof/Proofs/Exceptions.lean ====
section
/-! PROOF. Exceptions (60_exceptions.md): every well-formed instruction completes, and who may issue an operation. -/

namespace Sys2Proof.Machine

variable {i : Instr} {s : State} {r : Record} {rest : List Input}

/-- Settles O7: SEND_DATA and PACK turn a refusal into a next state, and well-formedness excludes the two operands that
stop a meaning. -/
theorem wellFormedInstructionsComplete : Obligations.WellFormedInstructionsComplete := fun _ _ =>
  exec_next_of_wellFormed

/-- An instruction is refused only for its operand: FRAME_DATA of an ACK, or a wire frame without an encoding. -/
theorem exec_refused_cases {why : Refusal} (h : exec i s = .refused why) :
    (why = .ackTypedOperand ∧ ∃ m, i = .frameData m) ∨ (why = .noSuchFrame ∧ Safety.receivesBytes i = true) := by
  by_cases hrx : Safety.receivesBytes i = true
  · refine .inr ⟨?_, hrx⟩
    rcases exec_of_receivesBytes s.cfg hrx with ⟨chunk, hexec⟩ | hexec <;> rw [hexec s rfl] at h <;> cases h
    rfl
  · have hill : wellFormed s.cfg i ≠ true := fun hwf => by
      obtain ⟨t, ht⟩ := exec_next_of_wellFormed hwf
      rw [ht] at h
      cases h
    cases i
    case frameData m =>
      rw [frameDataStopsOnAnAckMessage s m (by simpa [wellFormed] using hill)] at h
      cases h
      exact .inl ⟨rfl, m, rfl⟩
    case wireFrameData => exact absurd rfl hrx
    case wireFrameAck => exact absurd rfl hrx
    all_goals exact absurd rfl hill

/-- No instruction stops with the name that the step keeps for operations of the wrong issuer. -/
theorem exec_ne_refused_stepOfRxBytes (i : Instr) (s : State) : exec i s ≠ .refused .stepOfRxBytes := fun h => by
  rcases exec_refused_cases h with ⟨hwhy, -⟩ | ⟨hwhy, -⟩ <;> cases hwhy

/-- The four operations that R199 and R150 keep from the environment. -/
theorem issuedFromOutside_eq_false_iff : issuedFromOutside i = false ↔
    (∃ q p, i = .frameAck q p) ∨ (∃ m, i = .frameData m) ∨ (∃ q, i = .ackseq q) ∨ ∃ op, i = .pendset op := by
  cases i <;> simp [issuedFromOutside]

theorem issuedInstr_of_not_issuedFromOutside {c : Config} (hdec : decode c r = .ok i)
    (hin : issuedFromOutside i = false) : issuedInstr c r = .error .stepOfRxBytes := by
  simp [issuedInstr, readRecord_of_decode hdec, hin]

/-- The step turns a record of the environment away exactly when its instruction is a step of RX_BYTES. -/
theorem step_eq_refused_stepOfRxBytes_iff (hin : s.inbox = .issue r :: rest) (hdec : decode s.cfg r = .ok i) :
    step s = .refused .stepOfRxBytes ↔ issuedFromOutside i = false := by
  cases hout : issuedFromOutside i with
  | false =>
    exact iff_of_true (step_of_issuedInstr_error hin (issuedInstr_of_not_issuedFromOutside hdec hout)) rfl
  | true =>
    have hstep := step_of_issuedInstr_ok hin (issuedInstr_eq_ok.2 ⟨readRecord_of_decode hdec, hout⟩)
    exact iff_of_false (hstep ▸ exec_ne_refused_stepOfRxBytes i _) (by decide)

/-- Settles O58: the step asks who may issue the instruction, and no instruction that runs stops with that name. -/
theorem stepsOfRxBytesAreNotIssuedFromOutside : Obligations.StepsOfRxBytesAreNotIssuedFromOutside :=
  fun _ _ _ _ hin hdec => (step_eq_refused_stepOfRxBytes_iff hin hdec).trans issuedFromOutside_eq_false_iff

end Sys2Proof.Machine
end
